-- ==== Sys2Proof/Word.lean ====
section
/-! DEFINITION. The unsigned values of the spec (00_scope.md section 5) and the file of eight words (00_scope.md R6). -/

namespace Sys2Proof

/-- A 32-bit value, `u32` in the spec. -/
abbrev Word := BitVec 32

/-- An 8-bit value, `u8` in the spec. -/
abbrev Byte := BitVec 8

/-- A file of eight 32-bit words: KEY, DIN, OUT, DOUT, W, A and L_DIN are each one (10_state.md R8). -/
structure WordFile where
  w0 : Word
  w1 : Word
  w2 : Word
  w3 : Word
  w4 : Word
  w5 : Word
  w6 : Word
  w7 : Word
deriving DecidableEq, Repr, Inhabited

/-- The file whose eight words are all `v`. -/
def WordFile.replicate (v : Word) : WordFile := ⟨v, v, v, v, v, v, v, v⟩

/-- The file of zeros, the reset value of every word file (10_state.md R24). -/
def WordFile.zero : WordFile := WordFile.replicate 0

end Sys2Proof
end

