-- ==== Sys2Proof/Syntax.lean ====
section
/-! DEFINITION. Commands, versions, operations and error codes as names (30_encoding.md, 60_exceptions.md R111). -/

namespace Sys2Proof

/-- The closed set of algorithm versions (00_scope.md R2, 30_encoding.md R45). -/
inductive Version where
  | v10
  | v11
  | v20
deriving DecidableEq, Repr, Inhabited

/-- What the latch L_OP can name (10_state.md R17): the values 1 and 2, and `none` for its reset value 0. -/
inductive Operation where
  | none
  | derive
  | transform
deriving DecidableEq, Repr, Inhabited

/-- The commands: one constructor per row of spec/opcode_table.json (30_encoding.md R51).
`ai` is the AUTOINC bit (R46), `len` the six-bit LEN field (R47). -/
inductive Instr where
  | nop
  | deriveV10 (ai : Bool)
  | deriveV11 (ai : Bool)
  | deriveV20 (ai : Bool)
  | transformV10 (ai : Bool) (len : BitVec 6)
  | transformV11 (ai : Bool) (len : BitVec 6)
  | transformV20 (ai : Bool) (len : BitVec 6)
deriving DecidableEq, Repr

/-- The recorded error codes 1 to 5 (60_exceptions.md R111), the names a rejected word is rejected by. -/
inductive ErrCode where
  /-- Code 1: a CMD write while STATUS.BUSY is 1. -/
  | busy
  /-- Code 2: a reserved bit, or a field the opcode does not use, is not zero. -/
  | rsvd
  /-- Code 3: OP is 3 to 15. -/
  | opcode
  /-- Code 4: VER is 3 on DERIVE or TRANSFORM. -/
  | version
  /-- Code 5: TRANSFORM with LEN 0 or above 32. -/
  | length
deriving DecidableEq, Repr

/-- The decoder's answer (30_encoding.md R50): reject with a code, or the command to carry out
(`Nop` and `Accept(op, ver, ai, len)` of the rule are the seven constructors of `Instr`). -/
inductive Verdict where
  | reject (c : ErrCode)
  | command (i : Instr)
deriving DecidableEq, Repr

end Sys2Proof
end

