-- ==== Sys2Proof/WellFormed.lean ====
section
/-! DEFINITION. Which commands a legal word stands for (30_encoding.md R47, R51, R52). -/

namespace Sys2Proof

/-- LEN is legal for a TRANSFORM: 1 to 32 bytes (30_encoding.md R47). -/
def lenLegal (len : BitVec 6) : Bool := 1 ≤ len.toNat && len.toNat ≤ 32

/-- The commands with a legal word (30_encoding.md R51): every NOP and DERIVE, and every TRANSFORM
whose LEN is 1 to 32. -/
def Instr.wellFormed : Instr → Bool
  | .nop => true
  | .deriveV10 _ => true
  | .deriveV11 _ => true
  | .deriveV20 _ => true
  | .transformV10 _ len => lenLegal len
  | .transformV11 _ len => lenLegal len
  | .transformV20 _ len => lenLegal len

end Sys2Proof
end

