-- ==== Sys2Proof/Decode.lean ====
section
/-! DEFINITION. The command decoder of 30_encoding.md R50, total on every word, and the encoder of R51 and R54. -/

namespace Sys2Proof

/-- Field OP, bits 3:0 (30_encoding.md R43). -/
def opField (v : Word) : BitVec 4 := v.extractLsb' 0 4

/-- Field VER, bits 5:4 (30_encoding.md R43). -/
def verField (v : Word) : BitVec 2 := v.extractLsb' 4 2

/-- Field AI, bit 6 (30_encoding.md R43). -/
def aiField (v : Word) : Bool := v.getLsbD 6

/-- Reserved bit 7 (30_encoding.md R43, R48). -/
def reservedBit7 (v : Word) : Bool := v.getLsbD 7

/-- Field LEN, bits 13:8 (30_encoding.md R43). -/
def lenField (v : Word) : BitVec 6 := v.extractLsb' 8 6

/-- Reserved bits 31:14 (30_encoding.md R43, R48). -/
def reservedHigh (v : Word) : BitVec 18 := v.extractLsb' 14 18

/-- Bits 13:4, which a NOP word leaves zero (30_encoding.md R49). -/
def nopUnused (v : Word) : BitVec 10 := v.extractLsb' 4 10

/-- VER values: 0, 1 and 2 are the versions, 3 is invalid (30_encoding.md R45). -/
def versionOf (ver : BitVec 2) : Option Version :=
  match ver.toNat with
  | 0 => some .v10
  | 1 => some .v11
  | 2 => some .v20
  | _ => none

/-- The VER value of a version (30_encoding.md R45). -/
def versionCode : Version → BitVec 2
  | .v10 => 0
  | .v11 => 1
  | .v20 => 2

/-- The DERIVE row of a version. -/
def deriveInstr (ver : Version) (ai : Bool) : Instr :=
  match ver with
  | .v10 => .deriveV10 ai
  | .v11 => .deriveV11 ai
  | .v20 => .deriveV20 ai

/-- The TRANSFORM row of a version. -/
def transformInstr (ver : Version) (ai : Bool) (len : BitVec 6) : Instr :=
  match ver with
  | .v10 => .transformV10 ai len
  | .v11 => .transformV11 ai len
  | .v20 => .transformV20 ai len

/-- The code an error is recorded as (60_exceptions.md R111). -/
def errCodeBits : ErrCode → BitVec 4
  | .busy => 1
  | .rsvd => 2
  | .opcode => 3
  | .version => 4
  | .length => 5

/-- The checks on an opcode's own fields, once VER is known legal (30_encoding.md R50). -/
def decodeOperands (v : Word) (ver : Version) : Verdict :=
  if opField v = 1 then
    if lenField v ≠ 0 then .reject .rsvd else .command (deriveInstr ver (aiField v))
  else if lenLegal (lenField v) then .command (transformInstr ver (aiField v) (lenField v))
  else .reject .length

/-- The verdict on a word written while the engine is idle: the checks of 30_encoding.md R50 after the
BUSY check, in the rule's order; the first that fails decides the code (60_exceptions.md R114). -/
def decodeWord (v : Word) : Verdict :=
  if reservedHigh v ≠ 0 ∨ reservedBit7 v = true then .reject .rsvd
  else if 2 < (opField v).toNat then .reject .opcode
  else if opField v = 0 then
    if nopUnused v ≠ 0 then .reject .rsvd else .command .nop
  else
    match versionOf (verField v) with
    | none => .reject .version
    | some ver => decodeOperands v ver

/-- The command decoder of 30_encoding.md R50: a word and STATUS.BUSY to one verdict. -/
def decode (v : Word) (busy : Bool) : Verdict :=
  if busy then .reject .busy else decodeWord v

/-- The command word of given field values, every reserved bit 0 (30_encoding.md R43). -/
def commandWord (op : BitVec 4) (ver : BitVec 2) (ai : Bool) (len : BitVec 6) : Word :=
  (0#18 ++ len ++ 0#1 ++ BitVec.ofBool ai ++ ver ++ op).cast (by decide)

/-- The word of a command (30_encoding.md R51). An illegal LEN encodes to a word that R50 rejects (R54). -/
def encode : Instr → Word
  | .nop => commandWord 0 0 false 0
  | .deriveV10 ai => commandWord 1 (versionCode .v10) ai 0
  | .deriveV11 ai => commandWord 1 (versionCode .v11) ai 0
  | .deriveV20 ai => commandWord 1 (versionCode .v20) ai 0
  | .transformV10 ai len => commandWord 2 (versionCode .v10) ai len
  | .transformV11 ai len => commandWord 2 (versionCode .v11) ai len
  | .transformV20 ai len => commandWord 2 (versionCode .v20) ai len

/-- The command read from the low `nbits` bits of `w`, every higher bit 0, by an idle engine. A command is
one 32-bit bus datum (30_encoding.md R42), so the number is the word: no byte order enters. -/
def decodeTableWord (nbits w : Nat) : Option Instr :=
  match decode (BitVec.ofNat 32 (w % 2 ^ nbits)) false with
  | .command i => some i
  | .reject _ => none

end Sys2Proof
end

