-- ==== Sys2Proof/Config.lean ====
section
/-! DEFINITION. What one FTP-CORE build fixes (10_state.md R21), its open parameters (00_scope.md R6, R7) and the
free values of 10_state.md R25. The opaque constants have no body: nothing can be proved of their values. -/

namespace Sys2Proof

/-- The modulus of a reduction (40_primitives.md R62): `fp` is 2^32 - 5, `w32` is 32-bit wraparound. -/
inductive Modulus where
  | fp
  | w32
deriving DecidableEq, Repr

/-- How step 3 feeds the sum back (40_primitives.md R67, field fb3). -/
inductive Feedback where
  | xorOnly
  | xorThenReduce
deriving DecidableEq, Repr

/-- How steps 6 and 7 combine their two terms (40_primitives.md R67, fields mix6 and mix7). -/
inductive Mix where
  | add
  | xor
deriving DecidableEq, Repr

/-- The configuration record of a version, field by field as 40_primitives.md R67 lists it. -/
structure RoundConfig where
  mWord : Modulus
  mSum : Modulus
  fb3 : Feedback
  mFb5 : Modulus
  mix6 : Mix
  mix7 : Mix
  permEvery : Nat
  permPhase : Nat
deriving DecidableEq, Repr

/-- The cadence fields hold values R67 lists: permEvery is 1 or 4, permPhase is below it. -/
def RoundConfig.legal (c : RoundConfig) : Bool :=
  (c.permEvery == 1 || c.permEvery == 4) && decide (c.permPhase < c.permEvery)

/-- The parameters of one build (00_scope.md R6, R7). A permutation table is a bijection of the byte
positions by its type (42_permutation.md R86); words 0 and 1 of `kInit` are never read (43_driver.md R95). -/
structure Build where
  permTable : Fin 16 → Equiv.Perm (Fin 32)
  kInit : Fin 8 → Word
  versionConfig : Version → RoundConfig

/-- PERM_TABLE of the machine's build: OPEN, any 16 bijections (00_scope.md R6, 42_permutation.md R86). -/
opaque Config.permTable : Fin 16 → Equiv.Perm (Fin 32)

/-- K_INIT of the machine's build: OPEN, any words (00_scope.md R6, 43_driver.md R95). -/
opaque Config.kInit : Fin 8 → Word

/-- Which 256-byte block of the bus P_BASE is: OPEN (20_memory.md R26, 92_eei_decisions.md D30). -/
opaque Config.pBaseBlock : Nat

/-- Clock cycles of P_LATENCY beyond its lower bound 18: OPEN (70_reset_and_hazards.md R139). -/
opaque Config.pLatencyExtra : Nat

/-- Free values of a word file after completion: W and A (10_state.md R25, 93_implementation_defined.md U7). -/
opaque Config.freeWords : Nat → WordFile

/-- Free values of the latch L_OP after completion (10_state.md R25). -/
opaque Config.freeOperation : Nat → Operation

/-- Free values of the latch L_VER after completion (10_state.md R25). -/
opaque Config.freeVersion : Nat → Version

/-- Free values of the latch L_AI after completion (10_state.md R25). -/
opaque Config.freeFlag : Nat → Bool

/-- Free values of the latch L_LEN after completion (10_state.md R25). -/
opaque Config.freeLen : Nat → BitVec 6

/-- Free values of the latch L_CTR after completion (10_state.md R25). -/
opaque Config.freeCtr : Nat → BitVec 64

end Sys2Proof
end

