-- ==== Sys2Proof/Machine/State.lean ====
section
/-! DEFINITION. All the state of 10_state.md R8, the model's own fields for the host and the interleaving
(20_memory.md R36), and the reset state (10_state.md R24). -/

namespace Sys2Proof.Machine

/-- The sequencer position `seq`, 18 values (10_state.md R16). `run i` means round `i` is next. -/
inductive SeqPos where
  | idle
  | run (i : Fin 16)
  | emit
deriving DecidableEq, Repr

/-- The fields of STATUS (10_state.md R10). Bits 31:8 are reserved and have no storage. -/
structure Status where
  busy : Bool
  done : Bool
  err : Bool
  cwrap : Bool
  errCode : BitVec 4
deriving DecidableEq, Repr

/-- The accept latches (10_state.md R17). -/
structure Latches where
  op : Operation
  ver : Version
  ai : Bool
  len : BitVec 6
  ctr : BitVec 64
  din : WordFile
deriving DecidableEq, Repr

/-- The engine: every piece of state of 10_state.md R8. CMD has no storage (R11). -/
structure Engine where
  /-- CTRL.IE, the one field of CTRL (10_state.md R9). -/
  ie : Bool
  /-- STATUS (10_state.md R10). -/
  status : Status
  /-- CTR_HI (10_state.md R12). -/
  ctrHi : Word
  /-- CTR_LO (10_state.md R12). -/
  ctrLo : Word
  /-- KEY[0..7] (10_state.md R13). -/
  key : WordFile
  /-- DIN[0..7] (10_state.md R18). -/
  din : WordFile
  /-- OUT[0..7] (10_state.md R19). -/
  out : WordFile
  /-- DOUT[0..7] (10_state.md R20). -/
  dout : WordFile
  /-- W[0..7], the working state (10_state.md R14). -/
  w : WordFile
  /-- A[0..7], the round constants (10_state.md R15). -/
  a : WordFile
  /-- The sequencer position (10_state.md R16). -/
  seq : SeqPos
  /-- The accept latches (10_state.md R17). -/
  latch : Latches
deriving DecidableEq, Repr

/-- Who takes the next turn: the host, the sequencer (20_memory.md R36), or the platform asserting reset
(70_reset_and_hazards.md R129). -/
inductive Turn where
  | host
  | sequencer
  | reset
deriving DecidableEq, Repr

/-- A line of a host program (30_encoding.md R54), registers given by offset. A `cmd` line is the `wr` to CMD it
stands for; a comment line is no line. -/
inductive HostLine where
  /-- `wr REG, VALUE` -/
  | wr (off : BitVec 8) (v : Word)
  /-- `rd REG` -/
  | rd (off : BitVec 8)
  /-- `rd REG -> VALUE` -/
  | rdStated (off : BitVec 8) (v : Word)
  /-- `poll REG, MASK, VALUE` -/
  | poll (off : BitVec 8) (mask v : Word)
deriving DecidableEq, Repr

/-- What the bus answers to one access (20_memory.md R29): the error response, and the data of a read. -/
structure BusResponse where
  error : Bool
  data : Option Word
deriving DecidableEq, Repr

/-- The whole machine: the engine, and the model's own fields for what stands outside it. -/
structure State where
  engine : Engine
  /-- The agents that move next, first one first: the interleaving, which 20_memory.md R36 leaves open. After
  the last one the host and the platform are silent and the sequencer moves (log entry 2). -/
  turns : List Turn
  /-- The host's accesses still to come, in the order it issues them (20_memory.md R36). -/
  script : List HostLine
  /-- The bus responses the host has had, newest first (log entry 4). -/
  heard : List BusResponse
  /-- Every `rd REG -> VALUE` so far returned VALUE (30_encoding.md R54; log entry 18). -/
  scriptHolds : Bool
  /-- How many completions have drawn free values (10_state.md R25; log entry 8). -/
  freeNext : Nat
deriving DecidableEq, Repr

/-- What stops the machine with a fault: nothing. A misaligned access is answered on the bus
(20_memory.md R29) and an illegal command word is rejected (60_exceptions.md R112); the machine goes on. -/
inductive Fault where
deriving DecidableEq, Repr

/-- What the model refuses. -/
inductive Refusal where
  /-- Raised by `exec` for an instruction that has no meaning yet; safe. No arm raises it now. -/
  | notModelled (mnemonic : String)
deriving DecidableEq, Repr

/-- STATUS after reset (10_state.md R24). -/
def Status.reset : Status := ⟨false, false, false, false, 0⟩

/-- The latches after reset (10_state.md R24): zeros; L_OP 0 names no operation, L_VER 0 is V1.0. -/
def Latches.reset : Latches := ⟨.none, .v10, false, 0, 0, WordFile.zero⟩

/-- The engine after reset: every field as 10_state.md R24 and 70_reset_and_hazards.md R129 give it. -/
def Engine.reset : Engine where
  ie := false
  status := Status.reset
  ctrHi := 0
  ctrLo := 0
  key := WordFile.zero
  din := WordFile.zero
  out := WordFile.zero
  dout := WordFile.zero
  w := WordFile.zero
  a := WordFile.zero
  seq := .idle
  latch := Latches.reset

/-- The machine right after reset: the engine of 10_state.md R24, a host that has issued nothing. -/
def State.reset : State where
  engine := Engine.reset
  turns := []
  script := []
  heard := []
  scriptHolds := true
  freeNext := 0

end Sys2Proof.Machine
end

