-- ==== Sys2Proof/Machine/Flags.lean ====
section
/-! DEFINITION. Every way STATUS changes, the STATUS and CTRL words the host reads, and irq
(10_state.md R9, R10, 60_exceptions.md R112, R116). -/

namespace Sys2Proof.Machine

/-- The word a read of STATUS returns (10_state.md R10): reserved bits 31:8 are 0. -/
def statusWord (t : Status) : Word :=
  (0#24 ++ t.errCode ++ BitVec.ofBool t.cwrap ++ BitVec.ofBool t.err ++ BitVec.ofBool t.done ++
    BitVec.ofBool t.busy).cast (by decide)

/-- The word a read of CTRL returns (10_state.md R9): reserved bits 31:1 are 0. -/
def ctrlWord (ie : Bool) : Word := (0#31 ++ BitVec.ofBool ie).cast (by decide)

/-- A host write to STATUS: bits 1, 2 and 3 clear by writing 1, every other bit is ignored (10_state.md R10).
Clearing ERR, which clears ERRCODE with it, is the return from an error (60_exceptions.md R113, R120). -/
def statusClear (v : Word) (t : Status) : Status where
  busy := t.busy
  done := t.done && !v.getLsbD 1
  err := t.err && !v.getLsbD 2
  cwrap := t.cwrap && !v.getLsbD 3
  errCode := if v.getLsbD 2 then 0 else t.errCode

/-- Accept sets BUSY and clears DONE (43_driver.md R93). -/
def statusAccept (t : Status) : Status := { t with done := false, busy := true }

/-- A rejection records the first error only (60_exceptions.md R112, R113). -/
def statusReject (c : ErrCode) (t : Status) : Status :=
  if t.err then t else { t with err := true, errCode := errCodeBits c }

/-- Completion clears BUSY, sets DONE, and sets CWRAP on a counter wrap (43_driver.md R100, R101). -/
def statusComplete (wrapped : Bool) (t : Status) : Status :=
  { t with busy := false, done := true, cwrap := t.cwrap || wrapped }

/-- The interrupt output (60_exceptions.md R116). -/
def irq (e : Engine) : Bool := e.ie && (e.status.done || e.status.err)

end Sys2Proof.Machine
end

