-- ==== Sys2Proof/Machine/Operands.lean ====
section
/-! DEFINITION. The primitives of 40_primitives.md, the byte and word views, and the operand selection of a
round (41_arx_round.md R70). -/

namespace Sys2Proof.Machine

/-- Element `j` of a word file. -/
def wordAt (x : WordFile) (j : Fin 8) : Word :=
  match j with
  | 0 => x.w0
  | 1 => x.w1
  | 2 => x.w2
  | 3 => x.w3
  | 4 => x.w4
  | 5 => x.w5
  | 6 => x.w6
  | 7 => x.w7

/-- The word file with given elements. -/
def fileOf (f : Fin 8 → Word) : WordFile := ⟨f 0, f 1, f 2, f 3, f 4, f 5, f 6, f 7⟩

/-- The word file with element `j` written. -/
def putWord (x : WordFile) (j : Fin 8) (v : Word) : WordFile :=
  fileOf fun k => if k = j then v else wordAt x k

/-- The word that holds byte `p`, number `p div 4` (40_primitives.md R64). -/
def byteWord (p : Fin 32) : Fin 8 := ⟨p.val / 4, by omega⟩

/-- Byte `p` of a word file in the canonical, big-endian order (40_primitives.md R64). -/
def byteAt (x : WordFile) (p : Fin 32) : Byte :=
  (wordAt x (byteWord p)).extractLsb' (24 - 8 * (p.val % 4)) 8

/-- Word `j` of the file whose bytes are `b` (40_primitives.md R65). -/
def wordOfBytes (b : Fin 32 → Byte) (j : Fin 8) : Word :=
  (b ⟨4 * j.val, by omega⟩ ++ b ⟨4 * j.val + 1, by omega⟩ ++ b ⟨4 * j.val + 2, by omega⟩ ++
    b ⟨4 * j.val + 3, by omega⟩ : BitVec (8 + 8 + 8 + 8))

/-- The word file of 32 bytes (40_primitives.md R65). -/
def wordsOf (b : Fin 32 → Byte) : WordFile := fileOf (wordOfBytes b)

/-- Bitwise exclusive or, word by word (40_primitives.md R66). -/
def xorFile (x y : WordFile) : WordFile := fileOf fun j => wordAt x j ^^^ wordAt y j

/-- Circular right rotation (40_primitives.md R56). Every amount used is 1 to 31 (R58); amount 0 leaves the word
as it is, rotation mod 32, which 93_implementation_defined.md U1 allows. -/
def rotr (x : Word) (s : BitVec 5) : Word := (x >>> s.toNat) ||| (x <<< (32 - s.toNat))

/-- Circular left rotation (40_primitives.md R57). -/
def rotl (x : Word) (s : BitVec 5) : Word := (x <<< s.toNat) ||| (x >>> (32 - s.toNat))

/-- SHIFT, indexed in the order the source lists the amounts (40_primitives.md R59). -/
def shiftTable (k : Nat) : BitVec 5 :=
  match k with
  | 0 => 23
  | 1 => 5
  | 2 => 17
  | 3 => 31
  | _ => 13

/-- fp = 2^32 - 5 (40_primitives.md R60). -/
def fp : Nat := 4294967291

/-- Reduction of an exact sum (40_primitives.md R62). -/
def red (x : Nat) (m : Modulus) : Word :=
  match m with
  | .fp => BitVec.ofNat 32 (x % fp)
  | .w32 => BitVec.ofNat 32 x

/-- The exact sum of all eight words (40_primitives.md R61, 41_arx_round.md R73). -/
def sumWords (x : WordFile) : Nat :=
  x.w0.toNat + x.w1.toNat + x.w2.toNat + x.w3.toNat + x.w4.toNat + x.w5.toNat + x.w6.toNat + x.w7.toNat

/-- The operands of a round: four state words, two constant slots, two rotation amounts (41_arx_round.md R70). -/
structure Selection where
  a : Fin 8
  b : Fin 8
  c : Fin 8
  d : Fin 8
  c0 : Fin 8
  c1 : Fin 8
  shift : BitVec 5
  shift' : BitVec 5
deriving DecidableEq, Repr

/-- The operands of round `i` (41_arx_round.md R70). -/
def select (i : Fin 16) : Selection where
  a := Fin.ofNat 8 (4 * i.val)
  b := Fin.ofNat 8 (4 * i.val + 1)
  c := Fin.ofNat 8 (4 * i.val + 2)
  d := Fin.ofNat 8 (4 * i.val + 3)
  c0 := Fin.ofNat 8 i.val
  c1 := Fin.ofNat 8 (i.val + 1)
  shift := shiftTable (i.val % 5)
  shift' := shiftTable ((i.val + 1) % 5)

/-- The default of the parameter VERSION_CONFIG (40_primitives.md R68; log entry 6). -/
def versionConfig : Version → RoundConfig
  | .v10 => ⟨.fp, .fp, .xorOnly, .fp, .add, .add, 1, 0⟩
  | .v11 => ⟨.fp, .fp, .xorThenReduce, .fp, .add, .add, 1, 0⟩
  | .v20 => ⟨.w32, .w32, .xorOnly, .w32, .xor, .add, 4, 0⟩

/-- The build with a given VERSION_CONFIG: the tables and constants are the open parameters (00_scope.md R6, R7). -/
def buildWith (vc : Version → RoundConfig) : Build := ⟨Config.permTable, Config.kInit, vc⟩

/-- P_BASE, 256-byte aligned (20_memory.md R26, 92_eei_decisions.md D30). -/
def pBase : Nat := 256 * Config.pBaseBlock

/-- P_LATENCY in clock cycles, at least 18 (70_reset_and_hazards.md R139). No step depends on it. -/
def pLatency : Nat := 18 + Config.pLatencyExtra

end Sys2Proof.Machine
end

