-- ==== Sys2Proof/Machine/Permutation.lean ====
section
/-! DEFINITION. The byte-shuffle permutation unit (42_permutation.md). -/

namespace Sys2Proof.Machine

/-- Output byte `p` is input byte `t p`, all 32 taken from the old state (42_permutation.md R84, R85). -/
def permute (w : WordFile) (t : Fin 32 → Fin 32) : WordFile := wordsOf fun p => byteAt w (t p)

/-- Round `i` permutes under this configuration (42_permutation.md R88). -/
def permutes (cfg : RoundConfig) (i : Fin 16) : Bool := i.val % cfg.permEvery == cfg.permPhase

/-- The table of round `i` is table `i mod 16`, that is `i` (42_permutation.md R87). -/
def tableOf (b : Build) (i : Fin 16) : Fin 32 → Fin 32 := b.permTable i

end Sys2Proof.Machine
end

