-- ==== Sys2Proof/Machine/Round.lean ====
section
/-! DEFINITION. The ARX round (41_arx_round.md): steps 1 to 7, each on what the earlier ones wrote, then the
conditional permutation. -/

namespace Sys2Proof.Machine

/-- The two word files a round works on (41_arx_round.md R79). -/
structure RoundState where
  w : WordFile
  a : WordFile
deriving DecidableEq, Repr

/-- Step 1 (41_arx_round.md R72). -/
def arxStep1 (cfg : RoundConfig) (q : Selection) (r : RoundState) : RoundState :=
  let wa := wordAt r.w q.a
  { r with
    w := putWord r.w q.a
      (red (wa.toNat + (wordAt r.a q.c0).toNat + (rotr wa q.shift).toNat) cfg.mWord) }

/-- Step 2's round-local value `sum` (41_arx_round.md R73). -/
def arxSum (cfg : RoundConfig) (r : RoundState) : Word := red (sumWords r.w) cfg.mSum

/-- What step 3 stores for the exclusive or `t` (41_arx_round.md R74). -/
def feedback3 (fb : Feedback) (t : Word) : Word :=
  match fb with
  | .xorThenReduce => red t.toNat .fp
  | .xorOnly => t

/-- Steps 2 and 3: the sum of all words fed back into constant c1 (41_arx_round.md R73, R74). -/
def arxStep3 (cfg : RoundConfig) (q : Selection) (r : RoundState) : RoundState :=
  { r with
    a := putWord r.a q.c1 (feedback3 cfg.fb3 (wordAt r.a q.c1 ^^^ arxSum cfg r)) }

/-- Step 4 (41_arx_round.md R75). -/
def arxStep4 (cfg : RoundConfig) (q : Selection) (r : RoundState) : RoundState :=
  let wb := wordAt r.w q.b
  { r with
    w := putWord r.w q.b
      (red (wb.toNat + (wordAt r.a q.c1).toNat + (rotl wb q.shift).toNat) cfg.mWord) }

/-- Step 5 (41_arx_round.md R76). -/
def arxStep5 (cfg : RoundConfig) (q : Selection) (r : RoundState) : RoundState :=
  { r with
    a := putWord r.a q.c0
      (wordAt r.a q.c0 ^^^
        red ((wordAt r.w q.b).toNat + (rotr (wordAt r.w q.a) q.shift').toNat) cfg.mFb5) }

/-- The combination of the two terms of steps 6 and 7 (41_arx_round.md R77, R78): the whole sum is reduced
(90_conflicts.md C8). -/
def mixTerms (mix : Mix) (m : Modulus) (x y : Word) : Word :=
  match mix with
  | .add => red (x.toNat + y.toNat) m
  | .xor => x ^^^ y

/-- Step 6 (41_arx_round.md R77). -/
def arxStep6 (cfg : RoundConfig) (q : Selection) (r : RoundState) : RoundState :=
  { r with
    w := putWord r.w q.c
      (mixTerms cfg.mix6 cfg.mWord (wordAt r.a q.c0 ^^^ wordAt r.w q.c) (wordAt r.a q.c1 ^^^ wordAt r.w q.d)) }

/-- Step 7, which reads the W[c] of step 6 (41_arx_round.md R78). -/
def arxStep7 (cfg : RoundConfig) (q : Selection) (r : RoundState) : RoundState :=
  { r with
    w := putWord r.w q.d
      (mixTerms cfg.mix7 cfg.mWord (wordAt r.a q.c0 ^^^ wordAt r.w q.d) (wordAt r.a q.c1 ^^^ wordAt r.w q.c)) }

/-- Steps 1 to 7 in order (41_arx_round.md R79). -/
def arxSteps (cfg : RoundConfig) (q : Selection) (r : RoundState) : RoundState :=
  arxStep7 cfg q (arxStep6 cfg q (arxStep5 cfg q (arxStep4 cfg q (arxStep3 cfg q (arxStep1 cfg q r)))))

/-- Step 8: the permutation of the rounds that have one (41_arx_round.md R79, 42_permutation.md R88). -/
def roundPermute (b : Build) (cfg : RoundConfig) (i : Fin 16) (r : RoundState) : RoundState :=
  if permutes cfg i then { r with w := permute r.w (tableOf b i) } else r

/-- One whole round `i` of a version (41_arx_round.md R79, 40_primitives.md R69). -/
def arxRound (b : Build) (ver : Version) (i : Fin 16) (r : RoundState) : RoundState :=
  roundPermute b (b.versionConfig ver) i (arxSteps (b.versionConfig ver) (select i) r)

/-- The rounds below `n`, in order. -/
def roundsBelow (b : Build) (ver : Version) (r : RoundState) : Nat → RoundState
  | 0 => r
  | n + 1 => arxRound b ver (Fin.ofNat 16 n) (roundsBelow b ver r n)

/-- The round constants at accept: the counter's halves, then K_INIT[2..7] (43_driver.md R94, R95). -/
def seedConstants (kInit : Fin 8 → Word) (hi lo : Word) : WordFile :=
  ⟨hi, lo, kInit 2, kInit 3, kInit 4, kInit 5, kInit 6, kInit 7⟩

/-- W and A at accept: the key copy and the seeding (43_driver.md R94 to R96). -/
def startState (b : Build) (key : WordFile) (hi lo : Word) : RoundState := ⟨key, seedConstants b.kInit hi lo⟩

/-- `derive_block` (43_driver.md R105): the keystream block of a key, a counter and a version. -/
def deriveBlock (b : Build) (key : WordFile) (ctr : BitVec 64) (ver : Version) : WordFile :=
  (roundsBelow b ver (startState b key (ctr.extractLsb' 32 32) (ctr.extractLsb' 0 32)) 16).w

end Sys2Proof.Machine
end

