-- ==== Sys2Proof/Machine/Ops.lean ====
section
/-! DEFINITION. The named operations on the engine: rejecting a command (the one exception, 60_exceptions.md R112),
accepting one (43_driver.md R93), a round step (R97), completion (R98 to R101), and the sequencer's turn. The return
from an error is `statusClear` (60_exceptions.md R120). -/

namespace Sys2Proof.Machine

/-- Reject a command: STATUS records the code if no error is recorded; nothing else changes
(60_exceptions.md R112, R119). -/
def reject (c : ErrCode) (e : Engine) : Engine := { e with status := statusReject c e.status }

/-- The latches an accept writes (43_driver.md R93). -/
def latchInputs (op : Operation) (ver : Version) (ai : Bool) (len : BitVec 6) (e : Engine) : Latches where
  op := op
  ver := ver
  ai := ai
  len := len
  ctr := (e.ctrHi ++ e.ctrLo : BitVec (32 + 32))
  din := e.din

/-- Accept a command: latch the inputs, seed the constants, copy the key, start the sequencer
(43_driver.md R93 to R96). -/
def accept (op : Operation) (ver : Version) (ai : Bool) (len : BitVec 6) (e : Engine) : Engine :=
  { e with
    latch := latchInputs op ver ai len e
    a := seedConstants Config.kInit e.ctrHi e.ctrLo
    w := e.key
    status := statusAccept e.status
    seq := .run 0 }

/-- The position after round `i` (43_driver.md R97). -/
def seqAfter (i : Fin 16) : SeqPos :=
  if h : i.val + 1 < 16 then .run ⟨i.val + 1, h⟩ else .emit

/-- One round step in RUN(i) under VERSION_CONFIG `vc`, read at L_VER (43_driver.md R97, 40_primitives.md R69). -/
def roundStep (vc : Version → RoundConfig) (i : Fin 16) (e : Engine) : Engine :=
  let r := arxRound (buildWith vc) e.latch.ver i ⟨e.w, e.a⟩
  { e with w := r.w, a := r.a, seq := seqAfter i }

/-- The transformed segment: the first `len` bytes of data XOR keystream, then zeros (43_driver.md R99). -/
def transformData (len : BitVec 6) (din ks : WordFile) : WordFile :=
  wordsOf fun p => if p.val < len.toNat then byteAt din p ^^^ byteAt ks p else 0

/-- The counter after completion with AUTOINC (43_driver.md R100): mod 2^64. -/
def nextCounter (l : Latches) : BitVec 64 := l.ctr + 1

/-- The counter wraps at this completion (43_driver.md R100). -/
def counterWraps (l : Latches) : Bool := l.ai && l.ctr == 0xFFFFFFFFFFFFFFFF#64

/-- Unspecified latches after the `n`-th completion: free values (10_state.md R25; log entry 8). -/
def freeLatches (n : Nat) : Latches where
  op := Config.freeOperation n
  ver := Config.freeVersion n
  ai := Config.freeFlag n
  len := Config.freeLen n
  ctr := Config.freeCtr n
  din := Config.freeWords (3 * n + 2)

/-- Completion, one atomic step in EMIT (43_driver.md R98 to R101). W, A and the latches are unspecified
afterwards (10_state.md R25): free values numbered by `n`. -/
def complete (n : Nat) (e : Engine) : Engine :=
  { e with
    out := e.w
    dout := if e.latch.op = .transform then transformData e.latch.len e.latch.din e.w else e.dout
    ctrHi := if e.latch.ai then (nextCounter e.latch).extractLsb' 32 32 else e.ctrHi
    ctrLo := if e.latch.ai then (nextCounter e.latch).extractLsb' 0 32 else e.ctrLo
    status := statusComplete (counterWraps e.latch) e.status
    seq := .idle
    w := Config.freeWords (3 * n)
    a := Config.freeWords (3 * n + 1)
    latch := freeLatches n }

/-- The sequencer's turn (10_state.md R16): a round step, the completion, or nothing when idle
(60_exceptions.md R127). -/
def sequencerTurn (vc : Version → RoundConfig) (s : State) : State :=
  match s.engine.seq with
  | .idle => s
  | .run i => { s with engine := roundStep vc i s.engine }
  | .emit => { s with engine := complete s.freeNext s.engine, freeNext := s.freeNext + 1 }

/-- The platform's reset: every piece of engine state, in one step, from any state
(70_reset_and_hazards.md R129). The host is another agent and is not reset (log entry 20). -/
def resetTurn (s : State) : State := { s with engine := Engine.reset }

/-- The shared meaning of a command that starts the sequencer: rejected with BUSY while one runs
(60_exceptions.md R111), accepted otherwise (43_driver.md R92, R93). -/
def issue (op : Operation) (ver : Version) (ai : Bool) (len : BitVec 6) (s : State) : State :=
  if s.engine.status.busy then { s with engine := reject .busy s.engine }
  else { s with engine := accept op ver ai len s.engine }

/-- The shared meaning of TRANSFORM: BUSY is checked first, then LEN (30_encoding.md R50, 43_driver.md R104). -/
def issueTransform (ver : Version) (ai : Bool) (len : BitVec 6) (s : State) : State :=
  if s.engine.status.busy = false ∧ lenLegal len = false then { s with engine := reject .length s.engine }
  else issue .transform ver ai len s

end Sys2Proof.Machine
end

