-- ==== Sys2Proof/Machine/Derive.lean ====
section
/-! DEFINITION. The meanings of DERIVE.V10, DERIVE.V11 and DERIVE.V20 (43_driver.md R103): the CMD write accepts the
command; the sequencer's turns then run its rounds and complete it. -/

namespace Sys2Proof.Machine

/-- DERIVE.V10 (43_driver.md R103). -/
def execDeriveV10 (ai : Bool) (s : State) : Host.Outcome State Fault Refusal :=
  .next (issue .derive .v10 ai 0 s)

/-- DERIVE.V11 (43_driver.md R103). -/
def execDeriveV11 (ai : Bool) (s : State) : Host.Outcome State Fault Refusal :=
  .next (issue .derive .v11 ai 0 s)

/-- DERIVE.V20 (43_driver.md R103). -/
def execDeriveV20 (ai : Bool) (s : State) : Host.Outcome State Fault Refusal :=
  .next (issue .derive .v20 ai 0 s)

end Sys2Proof.Machine
end

