-- ==== Sys2Proof/Machine/Nop.lean ====
section
/-! DEFINITION. The meaning of NOP (43_driver.md R102). -/

namespace Sys2Proof.Machine

/-- NOP: no effect; rejected with BUSY if written while a command runs (43_driver.md R102). -/
def execNop (s : State) : Host.Outcome State Fault Refusal :=
  .next (if s.engine.status.busy then { s with engine := reject .busy s.engine } else s)

end Sys2Proof.Machine
end

