-- ==== Sys2Proof/Machine/Transform.lean ====
section
/-! DEFINITION. The meanings of TRANSFORM.V10, TRANSFORM.V11 and TRANSFORM.V20 (43_driver.md R104): the CMD write
accepts the command with its data segment; the sequencer's turns then run its rounds and complete it. -/

namespace Sys2Proof.Machine

/-- TRANSFORM.V10 (43_driver.md R104). -/
def execTransformV10 (ai : Bool) (len : BitVec 6) (s : State) : Host.Outcome State Fault Refusal :=
  .next (issueTransform .v10 ai len s)

/-- TRANSFORM.V11 (43_driver.md R104). -/
def execTransformV11 (ai : Bool) (len : BitVec 6) (s : State) : Host.Outcome State Fault Refusal :=
  .next (issueTransform .v11 ai len s)

/-- TRANSFORM.V20 (43_driver.md R104). -/
def execTransformV20 (ai : Bool) (len : BitVec 6) (s : State) : Host.Outcome State Fault Refusal :=
  .next (issueTransform .v20 ai len s)

end Sys2Proof.Machine
end

