-- ==== Sys2Proof/Machine/Dispatch.lean ====
section
/-! DEFINITION. The meaning of every command, one arm per row of spec/opcode_table.json. -/

namespace Sys2Proof.Machine

/-- What a command does when it is written to CMD (43_driver.md R92, R102 to R104). -/
def exec (i : Instr) (s : State) : Host.Outcome State Fault Refusal :=
  match i with
  | .nop => Sys2Proof.Machine.execNop s
  | .deriveV10 ai => Sys2Proof.Machine.execDeriveV10 ai s
  | .deriveV11 ai => Sys2Proof.Machine.execDeriveV11 ai s
  | .deriveV20 ai => Sys2Proof.Machine.execDeriveV20 ai s
  | .transformV10 ai len => Sys2Proof.Machine.execTransformV10 ai len s
  | .transformV11 ai len => Sys2Proof.Machine.execTransformV11 ai len s
  | .transformV20 ai len => Sys2Proof.Machine.execTransformV20 ai len s

end Sys2Proof.Machine
end

