-- ==== Sys2Proof/Machine/Window.lean ====
section
/-! DEFINITION. The register window: its map (20_memory.md R27), what a read returns, what a write stores, and what
the bus answers (R28 to R33). -/

namespace Sys2Proof.Machine

/-- The registers of the window (20_memory.md R27). -/
inductive Reg where
  | ctrl
  | status
  | cmd
  | ctrHi
  | ctrLo
  | key (j : Fin 8)
  | din (j : Fin 8)
  | out (j : Fin 8)
  | dout (j : Fin 8)
deriving DecidableEq, Repr

/-- The byte offset of a register (20_memory.md R27). -/
def offsetOf : Reg → BitVec 8
  | .ctrl => 0x00
  | .status => 0x04
  | .cmd => 0x08
  | .ctrHi => 0x10
  | .ctrLo => 0x14
  | .key j => BitVec.ofNat 8 (0x20 + 4 * j.val)
  | .din j => BitVec.ofNat 8 (0x40 + 4 * j.val)
  | .out j => BitVec.ofNat 8 (0x60 + 4 * j.val)
  | .dout j => BitVec.ofNat 8 (0x80 + 4 * j.val)

/-- An offset is misaligned when its bits 1:0 are not 0 (20_memory.md R29). -/
def misaligned (off : BitVec 8) : Bool := off.toNat % 4 != 0

/-- The number of the word at an offset in a file of eight. -/
def fileIndex (off : BitVec 8) : Fin 8 := Fin.ofNat 8 (off.toNat / 4)

/-- The register at an aligned offset, none at a reserved one (20_memory.md R27, R30). The 32-byte blocks
1 to 4 of the window are KEY, DIN, OUT and DOUT. -/
def regAt (off : BitVec 8) : Option Reg :=
  match off.toNat / 32 with
  | 0 =>
    match off.toNat with
    | 0x00 => some .ctrl
    | 0x04 => some .status
    | 0x08 => some .cmd
    | 0x10 => some .ctrHi
    | 0x14 => some .ctrLo
    | _ => none
  | 1 => some (.key (fileIndex off))
  | 2 => some (.din (fileIndex off))
  | 3 => some (.out (fileIndex off))
  | 4 => some (.dout (fileIndex off))
  | _ => none

/-- What a read of a register returns (20_memory.md R27, R31): CMD and KEY read 0. -/
def readReg (e : Engine) : Reg → Word
  | .ctrl => ctrlWord e.ie
  | .status => statusWord e.status
  | .cmd => 0
  | .ctrHi => e.ctrHi
  | .ctrLo => e.ctrLo
  | .key _ => 0
  | .din j => wordAt e.din j
  | .out j => wordAt e.out j
  | .dout j => wordAt e.dout j

/-- What a write to a register other than CMD does (20_memory.md R31, R33): STATUS clears, OUT and DOUT ignore it,
the others store it. -/
def writeReg (e : Engine) (v : Word) : Reg → Engine
  | .ctrl => { e with ie := v.getLsbD 0 }
  | .status => { e with status := statusClear v e.status }
  | .cmd => e
  | .ctrHi => { e with ctrHi := v }
  | .ctrLo => { e with ctrLo := v }
  | .key j => { e with key := putWord e.key j v }
  | .din j => { e with din := putWord e.din j v }
  | .out _ => e
  | .dout _ => e

/-- BusRead (20_memory.md R29, R30): the error response with data 0 at a misaligned offset, 0 at a reserved one. -/
def busRead (off : BitVec 8) (e : Engine) : BusResponse :=
  if misaligned off then ⟨true, some 0⟩
  else
    match regAt off with
    | none => ⟨false, some 0⟩
    | some r => ⟨false, some (readReg e r)⟩

/-- The value a BusRead returns. -/
def readValue (off : BitVec 8) (e : Engine) : Word := (busRead off e).data.getD 0

/-- The bus's answer to a BusWrite (20_memory.md R29): an error response exactly when misaligned. -/
def writeResponse (off : BitVec 8) : BusResponse := ⟨misaligned off, none⟩

/-- The engine after a BusWrite that is not a command (20_memory.md R29 to R31, R33). -/
def busWrite (off : BitVec 8) (v : Word) (e : Engine) : Engine :=
  if misaligned off then e
  else
    match regAt off with
    | none => e
    | some r => writeReg e v r

/-- The bus address of an offset of the window (20_memory.md R26, R41). -/
def busAddress (off : BitVec 8) : Nat := pBase + off.toNat

/-- The offset a bus address has in the window, none outside it (20_memory.md R26). -/
def windowOffset (addr : Nat) : Option (BitVec 8) :=
  if pBase ≤ addr ∧ addr < pBase + 256 then some (BitVec.ofNat 8 (addr - pBase)) else none

end Sys2Proof.Machine
end

