-- ==== Sys2Proof/Machine/Script.lean ====
section
/-! DEFINITION. The host's turn: what the next line of its script does (30_encoding.md R54), the choice of the next
turn (20_memory.md R36), and the pseudo-instructions (R55, 43_driver.md R108). -/

namespace Sys2Proof.Machine

/-- What a turn comes to: a decoded command to carry out, or the state it leaves. -/
inductive Fetched where
  | command (i : Instr) (s : State)
  | moved (s : State)

/-- The host receives a bus response. -/
def hear (r : BusResponse) (s : State) : State := { s with heard := r :: s.heard }

/-- A host write (20_memory.md R33): at CMD the decoder's verdict decides (43_driver.md R92), elsewhere it stores. -/
def hostWrite (off : BitVec 8) (v : Word) (s : State) : Fetched :=
  let s' := hear (writeResponse off) s
  if off = offsetOf .cmd then
    match decode v s.engine.status.busy with
    | .reject c => .moved { s' with engine := reject c s.engine }
    | .command i => .command i s'
  else .moved { s' with engine := busWrite off v s.engine }

/-- A host read (20_memory.md R32): the host hears the answer, nothing else changes. -/
def hostRead (off : BitVec 8) (s : State) : State := hear (busRead off s.engine) s

/-- One access of the host, the next line of its script (30_encoding.md R54). A poll whose value does not match
stays and reads again on the host's next turn; a host with no line left issues nothing. -/
def hostTurn (s : State) : Fetched :=
  match s.script with
  | [] => .moved s
  | .wr off v :: rest => hostWrite off v { s with script := rest }
  | .rd off :: rest => .moved (hostRead off { s with script := rest })
  | .rdStated off v :: rest =>
    .moved (hostRead off
      { s with script := rest, scriptHolds := s.scriptHolds && readValue off s.engine == v })
  | .poll off mask v :: rest =>
    .moved (hostRead off
      { s with script := if readValue off s.engine &&& mask = v then rest else s.script })

/-- A turn of one agent, in a build with VERSION_CONFIG `vc`. -/
def takeTurn (vc : Version → RoundConfig) (t : Turn) (s : State) : Fetched :=
  match t with
  | .host => hostTurn s
  | .sequencer => .moved (sequencerTurn vc s)
  | .reset => .moved (resetTurn s)

/-- The next turn: the first of the interleaving's list; with none left the host and the platform are silent and
the sequencer moves (20_memory.md R36; log entries 1 and 2). -/
def nextTurn (vc : Version → RoundConfig) (s : State) : Fetched :=
  match s.turns with
  | [] => takeTurn vc .sequencer s
  | t :: rest => takeTurn vc t { s with turns := rest }

/-- The names of 30_encoding.md R54 that a `cmd` line can hold. -/
inductive Mnemonic where
  | nop
  | derive (ver : Version)
  | transform (ver : Version)
deriving DecidableEq, Repr

/-- The word of `cmd MNEMONIC [ai] [len=N]` (30_encoding.md R54). -/
def cmdWord (m : Mnemonic) (ai : Bool) (len : BitVec 6) : Word :=
  match m with
  | .nop => commandWord 0 0 ai len
  | .derive ver => commandWord 1 (versionCode ver) ai len
  | .transform ver => commandWord 2 (versionCode ver) ai len

/-- `cmd MNEMONIC [ai] [len=N]` (30_encoding.md R54). -/
def cmd (m : Mnemonic) (ai : Bool) (len : BitVec 6) : HostLine := .wr (offsetOf .cmd) (cmdWord m ai len)

/-- A line for each word of a file, in the order 0 to 7. -/
def fileLines (line : Fin 8 → HostLine) : List HostLine :=
  [line 0, line 1, line 2, line 3, line 4, line 5, line 6, line 7]

/-- `setkey k0, ..., k7` (30_encoding.md R55). -/
def setkey (k : WordFile) : List HostLine := fileLines fun j => .wr (offsetOf (.key j)) (wordAt k j)

/-- `setctr c` (30_encoding.md R55). -/
def setctr (c : BitVec 64) : List HostLine :=
  [.wr (offsetOf .ctrHi) (c.extractLsb' 32 32), .wr (offsetOf .ctrLo) (c.extractLsb' 0 32)]

/-- `setdin d0, ..., d7` (30_encoding.md R55). -/
def setdin (d : WordFile) : List HostLine := fileLines fun j => .wr (offsetOf (.din j)) (wordAt d j)

/-- `wait` (30_encoding.md R55): until BUSY is 0. -/
def wait : List HostLine := [.poll (offsetOf .status) 1 0]

/-- `waitdone` (30_encoding.md R55): until BUSY is 0 and DONE is 1. -/
def waitdone : List HostLine := [.poll (offsetOf .status) 3 2]

/-- `getout` (30_encoding.md R55). -/
def getout : List HostLine := fileLines fun j => .rd (offsetOf (.out j))

/-- `getdout` (30_encoding.md R55). -/
def getdout : List HostLine := fileLines fun j => .rd (offsetOf (.dout j))

/-- `clrst` (30_encoding.md R55): clears DONE, ERR with ERRCODE, and CWRAP. -/
def clrst : List HostLine := [.wr (offsetOf .status) 0xE]

/-- `keystream VER, c` (30_encoding.md R55). -/
def keystream (ver : Version) (c : BitVec 64) : List HostLine :=
  setctr c ++ cmd (.derive ver) false 0 :: waitdone ++ getout

/-- `xorseg VER, n` (30_encoding.md R55). -/
def xorseg (ver : Version) (n : BitVec 6) : List HostLine :=
  cmd (.transform ver) true n :: waitdone ++ getdout

/-- The data bytes of a segment packed into DIN, the rest 0 (43_driver.md R108, 40_primitives.md R64). -/
def packSegment (data : List Byte) : WordFile := wordsOf fun p => data.getD p.val 0

/-- The segments of a buffer: 32 bytes each and a final short one, none for an empty buffer
(43_driver.md R108). `fuel` bounds their number. -/
def segments (fuel : Nat) (data : List Byte) : List (List Byte) :=
  match fuel, data with
  | 0, _ => []
  | _, [] => []
  | n + 1, data => data.take 32 :: segments n (data.drop 32)

/-- The host procedure for a buffer (43_driver.md R108). -/
def transformBuffer (ver : Version) (c : BitVec 64) (data : List Byte) : List HostLine :=
  setctr c ++ (segments data.length data).flatMap fun seg =>
    setdin (packSegment seg) ++ xorseg ver (BitVec.ofNat 6 seg.length)

end Sys2Proof.Machine
end

