-- ==== Sys2Proof/Machine/Step.lean ====
section
/-! DEFINITION. One step of the machine: one turn of one agent (20_memory.md R36). -/

namespace Sys2Proof.Machine

/-- One step of the machine whose VERSION_CONFIG is `vc`, a parameter (00_scope.md R6): the next turn, and the
meaning of the command it issues, if it issues one. -/
def stepWith (vc : Version → RoundConfig) (s : State) : Host.Outcome State Fault Refusal :=
  match nextTurn vc s with
  | .command i s' => exec i s'
  | .moved s' => .next s'

/-- One step of the machine with the default VERSION_CONFIG (40_primitives.md R68; log entry 6). -/
def step (s : State) : Host.Outcome State Fault Refusal := stepWith versionConfig s

/-- The state whose next turn is the host's and whose next host access writes the command word `w` to CMD
(log entry 3). `nbits` bits of `w` are used, every higher bit is 0. -/
def State.withFetchWord (s : State) (nbits w : Nat) : State :=
  { s with
    turns := .host :: s.turns
    script := .wr (offsetOf .cmd) (BitVec.ofNat 32 (w % 2 ^ nbits)) :: s.script }

end Sys2Proof.Machine
end

