-- ==== Sys2Proof/Safety.lean ====
section
/-! DEFINITION. The terms the statements use: the invariant of the engine, runs, what the host can see. -/

namespace Sys2Proof.Machine

/-- The invariant of the engine in every state a run reaches (10_state.md R10, R16, R17; 60_exceptions.md R111):
BUSY is 1 exactly when seq is not IDLE; ERRCODE is 0 exactly when ERR is 0; ERRCODE is at most 5; while a command
runs DONE is 0, L_OP names DERIVE or TRANSFORM, and L_LEN is 0 for a DERIVE and 1 to 32 for a TRANSFORM. -/
structure Engine.Inv (e : Engine) : Prop where
  busy_iff : e.status.busy = true ↔ e.seq ≠ .idle
  errCode_zero_iff : e.status.errCode = 0 ↔ e.status.err = false
  errCode_le : e.status.errCode.toNat ≤ 5
  done_idle : e.status.done = true → e.status.busy = false
  op_named : e.status.busy = true → e.latch.op ≠ .none
  derive_len : e.status.busy = true → e.latch.op = .derive → e.latch.len = 0
  transform_len : e.status.busy = true → e.latch.op = .transform → lenLegal e.latch.len = true

/-- The invariant of the machine is the engine's; the host's fields are free. -/
def State.Inv (s : State) : Prop := s.engine.Inv

/-- Whose turn the next step is (20_memory.md R36): the first of the list, the sequencer when none is left. -/
def turnOf (s : State) : Turn := s.turns.headD .sequencer

/-- How many of these turns are the sequencer's. -/
def sequencerTurns (ts : List Turn) : Nat := ts.count .sequencer

/-- `n` steps from `s` lead to `t` under VERSION_CONFIG `vc`, with no fault and no refusal on the way. -/
def Reaches (vc : Version → RoundConfig) : Nat → State → State → Prop
  | 0, s, t => s = t
  | n + 1, s, t => ∃ u, stepWith vc s = .next u ∧ Reaches vc n u t

/-- The next host access, if it is the host's turn, is a write of this word to CMD. -/
def writesCommand (s : State) (v : Word) : Prop :=
  turnOf s = .host ∧ s.script.head? = some (.wr (offsetOf .cmd) v)

/-- The 64-bit counter CTR (10_state.md R12). -/
def ctrOf (e : Engine) : BitVec 64 := (e.ctrHi ++ e.ctrLo : BitVec (32 + 32))

/-- The machine as the host's next line finds it: the turn and the line are used up, the response is heard. -/
def afterAccess (s : State) (r : BusResponse) : State :=
  { s with turns := s.turns.tail, script := s.script.tail, heard := r :: s.heard }

/-- Two machines alike in all the host can read, in the sequencer's position, and in the host's own fields. They may
differ in KEY, W, A and the latches, which no read returns (10_state.md R13, R23). -/
structure HostAlike (s t : State) : Prop where
  ie : s.engine.ie = t.engine.ie
  status : s.engine.status = t.engine.status
  ctrHi : s.engine.ctrHi = t.engine.ctrHi
  ctrLo : s.engine.ctrLo = t.engine.ctrLo
  din : s.engine.din = t.engine.din
  out : s.engine.out = t.engine.out
  dout : s.engine.dout = t.engine.dout
  seq : s.engine.seq = t.engine.seq
  turns : s.turns = t.turns
  script : s.script = t.script
  heard : s.heard = t.heard
  scriptHolds : s.scriptHolds = t.scriptHolds
  freeNext : s.freeNext = t.freeNext

end Sys2Proof.Machine
end

