-- ==== Sys2Proof/Certificates/Slice0/Obligations.lean ====
section
/-! DEFINITION. The statements for the provers. FTP-CORE has no data memory (20_memory.md R39), so a frame is about the
engine's registers and the host's record; a statement that gives the whole next state says the whole frame. A turn is
an entry of the model's list of turns; a list that has run out means the sequencer's turn (log entries 1 and 2). -/

open Sys2Proof Sys2Proof.Machine

/-! ### The command word (30_encoding.md) -/

/-- Words written out from the rows of 30_encoding.md R51 decode to the commands they stand for. -/
def Obligations.OpcodeTableWordsDecode : Prop :=
  decode 0x00000000 false = .command .nop ∧
  decode 0x00000001 false = .command (.deriveV10 false) ∧
  decode 0x00000051 false = .command (.deriveV11 true) ∧
  decode 0x00000061 false = .command (.deriveV20 true) ∧
  decode 0x00002042 false = .command (.transformV10 true 32) ∧
  decode 0x00000112 false = .command (.transformV11 false 1) ∧
  decode 0x00000122 false = .command (.transformV20 false 1)

/-- Decoding the word of a well-formed command gives the command back (30_encoding.md R50, R51). -/
def Obligations.DecodeOfEncodeIsTheCommand : Prop :=
  ∀ i : Instr, i.wellFormed = true → decode (encode i) false = .command i

/-- 30_encoding.md R51: row by row, the accepted words are those that match the row's match and mask, with LEN 1 to 32
for a TRANSFORM, and the free fields are the command's operands. -/
def Obligations.AcceptedWordsAreTheOpcodeTable : Prop :=
  ∀ v : Word,
    (decode v false = .command .nop ↔ v &&& 0xFFFFFFFF = 0x00000000) ∧
    (∀ ai, decode v false = .command (.deriveV10 ai) ↔ v &&& 0xFFFFFFBF = 0x00000001 ∧ v.getLsbD 6 = ai) ∧
    (∀ ai, decode v false = .command (.deriveV11 ai) ↔ v &&& 0xFFFFFFBF = 0x00000011 ∧ v.getLsbD 6 = ai) ∧
    (∀ ai, decode v false = .command (.deriveV20 ai) ↔ v &&& 0xFFFFFFBF = 0x00000021 ∧ v.getLsbD 6 = ai) ∧
    (∀ ai len, decode v false = .command (.transformV10 ai len) ↔
      v &&& 0xFFFFC0BF = 0x00000002 ∧ v.getLsbD 6 = ai ∧ v.toNat / 256 % 64 = len.toNat ∧
      1 ≤ len.toNat ∧ len.toNat ≤ 32) ∧
    (∀ ai len, decode v false = .command (.transformV11 ai len) ↔
      v &&& 0xFFFFC0BF = 0x00000012 ∧ v.getLsbD 6 = ai ∧ v.toNat / 256 % 64 = len.toNat ∧
      1 ≤ len.toNat ∧ len.toNat ≤ 32) ∧
    (∀ ai len, decode v false = .command (.transformV20 ai len) ↔
      v &&& 0xFFFFC0BF = 0x00000022 ∧ v.getLsbD 6 = ai ∧ v.toNat / 256 % 64 = len.toNat ∧
      1 ≤ len.toNat ∧ len.toNat ≤ 32)

/-- 30_encoding.md R50: the verdict on every word and BUSY, its fields read as arithmetic on the number v, the checks
in the rule's order. -/
def Obligations.DecoderChecksInOrder : Prop :=
  ∀ (v : Word) (busy : Bool), decode v busy =
    if busy = true then .reject .busy
    else if v.toNat / 2 ^ 14 ≠ 0 ∨ v.toNat / 2 ^ 7 % 2 ≠ 0 then .reject .rsvd
    else if 2 < v.toNat % 16 then .reject .opcode
    else if v.toNat % 16 = 0 then
      if v.toNat / 16 % 1024 ≠ 0 then .reject .rsvd else .command .nop
    else if v.toNat / 16 % 4 = 3 then .reject .version
    else if v.toNat % 16 = 1 then
      if v.toNat / 256 % 64 ≠ 0 then .reject .rsvd
      else if v.toNat / 16 % 4 = 0 then .command (.deriveV10 (decide (v.toNat / 64 % 2 = 1)))
      else if v.toNat / 16 % 4 = 1 then .command (.deriveV11 (decide (v.toNat / 64 % 2 = 1)))
      else .command (.deriveV20 (decide (v.toNat / 64 % 2 = 1)))
    else if v.toNat / 256 % 64 = 0 ∨ 32 < v.toNat / 256 % 64 then .reject .length
    else if v.toNat / 16 % 4 = 0 then
      .command (.transformV10 (decide (v.toNat / 64 % 2 = 1)) (BitVec.ofNat 6 (v.toNat / 256)))
    else if v.toNat / 16 % 4 = 1 then
      .command (.transformV11 (decide (v.toNat / 64 % 2 = 1)) (BitVec.ofNat 6 (v.toNat / 256)))
    else .command (.transformV20 (decide (v.toNat / 64 % 2 = 1)) (BitVec.ofNat 6 (v.toNat / 256)))

/-- The word a `cmd` line writes is the encoding of its command (30_encoding.md R54). -/
def Obligations.CmdLinesWriteTheEncodings : Prop :=
  cmd .nop false 0 = .wr 0x08 (encode .nop) ∧
  (∀ ver ai, cmd (.derive ver) ai 0 = .wr 0x08 (encode (deriveInstr ver ai))) ∧
  (∀ ver ai len, cmd (.transform ver) ai len = .wr 0x08 (encode (transformInstr ver ai len)))

/-! ### A CMD write and the commands (43_driver.md R92 to R104, 60_exceptions.md) -/

/-- 43_driver.md R92: a host write to CMD acts, in the same step, on the decoder's verdict. -/
def Obligations.CommandWriteActsOnTheVerdict : Prop :=
  ∀ (s : State) (v : Word), writesCommand s v →
    step s =
      match decode v s.engine.status.busy with
      | .reject c => .next { afterAccess s ⟨false, none⟩ with engine := reject c s.engine }
      | .command i => exec i (afterAccess s ⟨false, none⟩)

/-- A step runs the decoded command: when the host writes the word of a well-formed command, the step is `exec` of it
on the state whose turn and line are used up and whose write response is heard, idle or busy (43_driver.md R92). -/
def Obligations.StepRunsTheDecodedCommand : Prop :=
  ∀ (s : State) (i : Instr), i.wellFormed = true → writesCommand s (encode i) →
    step s = exec i (afterAccess s ⟨false, none⟩)

/-- 43_driver.md R102: NOP is word 0 only, changes no state when idle, is rejected with BUSY when busy; any other
word with OP = 0 is rejected with RSVD. -/
def Obligations.NopChangesNothing : Prop :=
  (∀ s : State, s.engine.status.busy = false → exec .nop s = .next s) ∧
  (∀ s : State, s.engine.status.busy = true →
    exec .nop s = .next { s with engine := reject .busy s.engine }) ∧
  (∀ v : Word, decode v false = .command .nop ↔ v = 0) ∧
  (∀ v : Word, v.toNat % 16 = 0 → v ≠ 0 → decode v false = .reject .rsvd)

/-- A DERIVE written while the engine is idle is accepted: the whole next state (43_driver.md R93 to R96, R103). The
opaque `Config.kInit` stands for K_INIT, of which nothing is assumed. -/
def Obligations.DeriveAcceptStartsTheSequencer : Prop :=
  ∀ (s : State) (ver : Version) (ai : Bool), s.engine.status.busy = false →
    exec (deriveInstr ver ai) s = .next { s with engine := { s.engine with
      latch := ⟨.derive, ver, ai, 0, ctrOf s.engine, s.engine.din⟩
      a := ⟨s.engine.ctrHi, s.engine.ctrLo, Config.kInit 2, Config.kInit 3, Config.kInit 4, Config.kInit 5,
            Config.kInit 6, Config.kInit 7⟩
      w := s.engine.key
      status := { s.engine.status with done := false, busy := true }
      seq := .run 0 } }

/-- A TRANSFORM with LEN 1 to 32 written while the engine is idle is accepted: the whole next state
(43_driver.md R93 to R96, R104). -/
def Obligations.TransformAcceptStartsTheSequencer : Prop :=
  ∀ (s : State) (ver : Version) (ai : Bool) (len : BitVec 6), s.engine.status.busy = false →
    1 ≤ len.toNat → len.toNat ≤ 32 →
    exec (transformInstr ver ai len) s = .next { s with engine := { s.engine with
      latch := ⟨.transform, ver, ai, len, ctrOf s.engine, s.engine.din⟩
      a := ⟨s.engine.ctrHi, s.engine.ctrLo, Config.kInit 2, Config.kInit 3, Config.kInit 4, Config.kInit 5,
            Config.kInit 6, Config.kInit 7⟩
      w := s.engine.key
      status := { s.engine.status with done := false, busy := true }
      seq := .run 0 } }

/-- A TRANSFORM with LEN 0 or above 32 is rejected with code 5 by an idle engine, which is otherwise unchanged
(30_encoding.md R47, 43_driver.md R104). No word decodes to such a command; that its meaning is this rejection is the
model's choice (log entry 14). -/
def Obligations.TransformWithIllegalLengthIsRejected : Prop :=
  ∀ (s : State) (ver : Version) (ai : Bool) (len : BitVec 6), s.engine.status.busy = false →
    len.toNat = 0 ∨ 32 < len.toNat →
    exec (transformInstr ver ai len) s = .next { s with engine := { s.engine with
      status := if s.engine.status.err = true then s.engine.status
                else { s.engine.status with err := true, errCode := 5 } } }

/-- 70_reset_and_hazards.md R133: any word written to CMD while BUSY = 1 is rejected with code 1, and nothing else of
the engine changes; each command's meaning says the same. -/
def Obligations.CommandWhileBusyIsRejected : Prop :=
  (∀ (s : State) (v : Word), writesCommand s v → s.engine.status.busy = true →
    step s = .next { afterAccess s ⟨false, none⟩ with engine := { s.engine with
      status := if s.engine.status.err = true then s.engine.status
                else { s.engine.status with err := true, errCode := 1 } } }) ∧
  (∀ (s : State) (i : Instr), s.engine.status.busy = true →
    exec i s = .next { s with engine := { s.engine with
      status := if s.engine.status.err = true then s.engine.status
                else { s.engine.status with err := true, errCode := 1 } } })

/-- 60_exceptions.md R112: an illegal word written to an idle engine records its code if no error is recorded, and
nothing else of the engine changes. -/
def Obligations.RejectionRecordsOnlyTheFirstError : Prop :=
  ∀ (s : State) (v : Word) (c : ErrCode), writesCommand s v → decode v s.engine.status.busy = .reject c →
    (s.engine.status.err = true → step s = .next (afterAccess s ⟨false, none⟩)) ∧
    (s.engine.status.err = false → step s = .next { afterAccess s ⟨false, none⟩ with engine := { s.engine with
      status := { s.engine.status with
        err := true
        errCode := match c with | .busy => 1 | .rsvd => 2 | .opcode => 3 | .version => 4 | .length => 5 } } })

/-- 60_exceptions.md R113: a recorded error stays, with its code, through every step but the host's write of 1 to
STATUS bit 2, which clears both; reset clears them too. -/
def Obligations.RecordedErrorStaysUntilCleared : Prop :=
  ∀ s t : State, step s = .next t → s.engine.status.err = true →
    let cleared := turnOf s = .host ∧ ∃ v : Word, s.script.head? = some (.wr 0x04 v) ∧ v.getLsbD 2 = true
    (¬ cleared → turnOf s ≠ .reset →
      t.engine.status.err = true ∧ t.engine.status.errCode = s.engine.status.errCode) ∧
    (cleared → t.engine.status.err = false ∧ t.engine.status.errCode = 0) ∧
    (turnOf s = .reset → t.engine.status.err = false ∧ t.engine.status.errCode = 0)

/-! ### The sequencer (10_state.md R16, 43_driver.md R97 to R101) -/

/-- A round step in RUN(i), for every VERSION_CONFIG: the whole next state. W and A are what the round of the latched
version leaves: the seven steps, then the permutation by table i in the rounds of its cadence; no host-visible register
changes (43_driver.md R97, 41_arx_round.md R79, 42_permutation.md R87, R88). -/
def Obligations.RoundStepRunsOneRound : Prop :=
  ∀ (vc : Version → RoundConfig) (s : State) (i : Fin 16), turnOf s = .sequencer → s.engine.seq = .run i →
    let cfg := vc s.engine.latch.ver
    let r := arxSteps cfg (select i) ⟨s.engine.w, s.engine.a⟩
    stepWith vc s = .next { s with
      turns := s.turns.tail
      engine := { s.engine with
        w := if i.val % cfg.permEvery = cfg.permPhase then permute r.w (Config.permTable i) else r.w
        a := r.a
        seq := if h : i.val < 15 then .run ⟨i.val + 1, by omega⟩ else .emit } }

/-- 10_state.md R16: seq moves exactly along the rule's table: reset to IDLE; the sequencer's steps through RUN(0) to
RUN(15), EMIT and IDLE; an accepted DERIVE or TRANSFORM from IDLE to RUN(0), and no other move by the host. -/
def Obligations.SequencerFollowsItsTable : Prop :=
  (∀ s t : State, s.Inv → step s = .next t →
    let accepts := ∃ v i, writesCommand s v ∧ decode v s.engine.status.busy = .command i ∧ i ≠ .nop
    (turnOf s = .reset → t.engine.seq = .idle) ∧
    (turnOf s = .sequencer → t.engine.seq =
      match s.engine.seq with
      | .idle => .idle
      | .run i => if h : i.val < 15 then .run ⟨i.val + 1, by omega⟩ else .emit
      | .emit => .idle) ∧
    (turnOf s = .host → accepts → s.engine.seq = .idle ∧ t.engine.seq = .run 0) ∧
    (turnOf s = .host → ¬ accepts → t.engine.seq = s.engine.seq)) ∧
  State.reset.engine.seq = .idle

/-- 43_driver.md R98 and R99: at completion OUT takes W, and for a TRANSFORM each byte of DOUT is the data byte XOR
the keystream byte below L_LEN and 0 from there on; a DERIVE leaves DOUT unchanged. -/
def Obligations.CompletionEmitsTheBlock : Prop :=
  ∀ s : State, turnOf s = .sequencer → s.engine.seq = .emit →
    ∃ t, step s = .next t ∧
      (∀ j, wordAt t.engine.out j = wordAt s.engine.w j) ∧
      (s.engine.latch.op = .transform → ∀ p : Fin 32, byteAt t.engine.dout p =
        if p.val < s.engine.latch.len.toNat then byteAt s.engine.latch.din p ^^^ byteAt s.engine.w p else 0) ∧
      (s.engine.latch.op ≠ .transform → t.engine.dout = s.engine.dout)

/-- 43_driver.md R100: with AUTOINC the counter becomes the latched counter plus 1 mod 2^64, whatever CTR holds, and a
wrap sets CWRAP; without it CTR is unchanged. -/
def Obligations.CompletionAdvancesTheCounter : Prop :=
  ∀ s : State, turnOf s = .sequencer → s.engine.seq = .emit →
    ∃ t, step s = .next t ∧
      (s.engine.latch.ai = true → (ctrOf t.engine).toNat = (s.engine.latch.ctr.toNat + 1) % 2 ^ 64) ∧
      (s.engine.latch.ai = false → t.engine.ctrHi = s.engine.ctrHi ∧ t.engine.ctrLo = s.engine.ctrLo) ∧
      (t.engine.status.cwrap = true ↔ s.engine.status.cwrap = true ∨
        (s.engine.latch.ai = true ∧ s.engine.latch.ctr.toNat = 2 ^ 64 - 1))

/-- 43_driver.md R101: completion clears BUSY, sets DONE and returns to IDLE; irq then follows IE; ERR and ERRCODE,
CTRL, KEY, DIN and the host's record stay. -/
def Obligations.CompletionFinishesTheCommand : Prop :=
  ∀ s : State, turnOf s = .sequencer → s.engine.seq = .emit →
    ∃ t, step s = .next t ∧
      t.engine.status.busy = false ∧ t.engine.status.done = true ∧ t.engine.seq = .idle ∧
      irq t.engine = s.engine.ie ∧
      t.engine.status.err = s.engine.status.err ∧ t.engine.status.errCode = s.engine.status.errCode ∧
      t.engine.ie = s.engine.ie ∧ t.engine.key = s.engine.key ∧ t.engine.din = s.engine.din ∧
      t.turns = s.turns.tail ∧ t.script = s.script ∧ t.heard = s.heard ∧ t.scriptHolds = s.scriptHolds

/-- OUT changes only at completion and at reset, DOUT only at completion of a TRANSFORM and at reset
(10_state.md R19, R20). -/
def Obligations.OutputsChangeOnlyAtCompletionOrReset : Prop :=
  ∀ s t : State, step s = .next t →
    (t.engine.out ≠ s.engine.out →
      turnOf s = .reset ∨ (turnOf s = .sequencer ∧ s.engine.seq = .emit)) ∧
    (t.engine.dout ≠ s.engine.dout →
      turnOf s = .reset ∨ (turnOf s = .sequencer ∧ s.engine.seq = .emit ∧ s.engine.latch.op = .transform))

/-- KEY and DIN change only at reset and by a host write to one of their words, which changes that word alone: the
sequencer never writes them (10_state.md R13, R18). -/
def Obligations.KeyAndDinAreWrittenOnlyByTheHost : Prop :=
  ∀ s t : State, step s = .next t →
    (t.engine.key ≠ s.engine.key → turnOf s = .reset ∨ (turnOf s = .host ∧
      ∃ (j : Fin 8) (v : Word), s.script.head? = some (.wr (BitVec.ofNat 8 (0x20 + 4 * j.val)) v) ∧
        ∀ k, wordAt t.engine.key k = if k = j then v else wordAt s.engine.key k)) ∧
    (t.engine.din ≠ s.engine.din → turnOf s = .reset ∨ (turnOf s = .host ∧
      ∃ (j : Fin 8) (v : Word), s.script.head? = some (.wr (BitVec.ofNat 8 (0x40 + 4 * j.val)) v) ∧
        ∀ k, wordAt t.engine.din k = if k = j then v else wordAt s.engine.din k))

/-! ### Primitives, the round and the permutation (40_primitives.md to 42_permutation.md) -/

/-- 40_primitives.md R56 and R57, for every amount 1 to 31: where each bit of a rotation comes from, that a left
rotation is the right rotation by the rest, the corner cases and the examples. -/
def Obligations.RotationsMoveEachBit : Prop :=
  (∀ (x : Word) (s : BitVec 5), 1 ≤ s.toNat →
    (∀ k, k < 32 → (rotr x s).getLsbD k = x.getLsbD ((k + s.toNat) % 32) ∧
      (rotl x s).getLsbD k = x.getLsbD ((k + 32 - s.toNat) % 32)) ∧
    rotl x s = rotr x (BitVec.ofNat 5 (32 - s.toNat)) ∧
    ((Finset.range 32).filter fun k => (rotr x s).getLsbD k = true).card =
      ((Finset.range 32).filter fun k => x.getLsbD k = true).card ∧
    rotr 0xFFFFFFFF s = 0xFFFFFFFF ∧ rotr 0 s = 0) ∧
  rotr 0x12345678 23 = 0x68ACF024 ∧ rotl 0x12345678 5 = 0x468ACF02

/-- 40_primitives.md R62: the reduction is the remainder mod 2^32 - 5 or mod 2^32, with the rule's corner cases. -/
def Obligations.ReductionIsTheRemainder : Prop :=
  (∀ x : Nat, (red x .fp).toNat = x % (2 ^ 32 - 5) ∧ (red x .w32).toNat = x % 2 ^ 32 ∧
    (red x .fp).toNat ≤ 0xFFFFFFFA) ∧
  red (2 ^ 32 - 5) .fp = 0 ∧ red 0xFFFFFFFF .fp = 4 ∧ red (2 ^ 32) .fp = 5 ∧
  red (3 * 0xFFFFFFFF) .fp = 0xC ∧ red (3 * 0xFFFFFFFF) .w32 = 0xFFFFFFFD

/-- 40_primitives.md R64 and R65: byte p is bits [31 - 8*(p mod 4) : 24 - 8*(p mod 4)] of word p div 4, and the word
file of 32 bytes has B[4j] to B[4j+3] in word j, the first highest. -/
def Obligations.BytesAreBigEndianInWords : Prop :=
  (∀ (x : WordFile) (p : Fin 32),
    (byteAt x p).toNat = (wordAt x ⟨p.val / 4, by omega⟩).toNat / 2 ^ (24 - 8 * (p.val % 4)) % 256) ∧
  (∀ (b : Fin 32 → Byte) (j : Fin 8),
    (wordAt (wordsOf b) j).toNat = (b ⟨4 * j.val, by omega⟩).toNat * 2 ^ 24 +
      (b ⟨4 * j.val + 1, by omega⟩).toNat * 2 ^ 16 + (b ⟨4 * j.val + 2, by omega⟩).toNat * 2 ^ 8 +
      (b ⟨4 * j.val + 3, by omega⟩).toNat)

/-- 41_arx_round.md R71, the whole table, and R79 with 42_permutation.md R87 and R88: the operands of the 16 rounds, which
rounds permute by default, and that a round of any build is its seven steps and then, in a round of the cadence, the
permutation by the table of the round's number. -/
def Obligations.OperandsOfEveryRound : Prop :=
  (List.ofFn select =
    [⟨0, 1, 2, 3, 0, 1, 23, 5⟩, ⟨4, 5, 6, 7, 1, 2, 5, 17⟩, ⟨0, 1, 2, 3, 2, 3, 17, 31⟩, ⟨4, 5, 6, 7, 3, 4, 31, 13⟩,
     ⟨0, 1, 2, 3, 4, 5, 13, 23⟩, ⟨4, 5, 6, 7, 5, 6, 23, 5⟩, ⟨0, 1, 2, 3, 6, 7, 5, 17⟩, ⟨4, 5, 6, 7, 7, 0, 17, 31⟩,
     ⟨0, 1, 2, 3, 0, 1, 31, 13⟩, ⟨4, 5, 6, 7, 1, 2, 13, 23⟩, ⟨0, 1, 2, 3, 2, 3, 23, 5⟩, ⟨4, 5, 6, 7, 3, 4, 5, 17⟩,
     ⟨0, 1, 2, 3, 4, 5, 17, 31⟩, ⟨4, 5, 6, 7, 5, 6, 31, 13⟩, ⟨0, 1, 2, 3, 6, 7, 13, 23⟩, ⟨4, 5, 6, 7, 7, 0, 23, 5⟩]) ∧
  (∀ i : Fin 16, permutes (versionConfig .v10) i = true ∧ permutes (versionConfig .v11) i = true ∧
    (permutes (versionConfig .v20) i = true ↔ i.val = 0 ∨ i.val = 4 ∨ i.val = 8 ∨ i.val = 12)) ∧
  (∀ (b : Build) (ver : Version) (i : Fin 16) (r : RoundState),
    let cfg := b.versionConfig ver
    (arxRound b ver i r).a = (arxSteps cfg (select i) r).a ∧
    (arxRound b ver i r).w =
      if i.val % cfg.permEvery = cfg.permPhase then permute (arxSteps cfg (select i) r).w (b.permTable i)
      else (arxSteps cfg (select i) r).w)

/-- 41_arx_round.md R72 to R78: steps 1 to 7 of round i under any configuration compute the rules' formulas, each on
the values the earlier steps wrote, and leave every other word and constant as it was. -/
def Obligations.ArxStepsComputeTheSevenFormulas : Prop :=
  ∀ (cfg : RoundConfig) (i : Fin 16) (r : RoundState),
    let q := select i
    let reduce (x : Nat) (m : Modulus) : Word :=
      BitVec.ofNat 32 (x % match m with | .fp => 2 ^ 32 - 5 | .w32 => 2 ^ 32)
    let combine (mix : Mix) (x y : Word) : Word :=
      match mix with | .add => reduce (x.toNat + y.toNat) cfg.mWord | .xor => x ^^^ y
    let wa := reduce ((wordAt r.w q.a).toNat + (wordAt r.a q.c0).toNat +
      ((wordAt r.w q.a).rotateRight q.shift.toNat).toNat) cfg.mWord
    let sum := reduce (∑ j : Fin 8, (if j = q.a then wa else wordAt r.w j).toNat) cfg.mSum
    let k1 := match cfg.fb3 with
      | .xorThenReduce => reduce (wordAt r.a q.c1 ^^^ sum).toNat .fp
      | .xorOnly => wordAt r.a q.c1 ^^^ sum
    let wb := reduce ((wordAt r.w q.b).toNat + k1.toNat +
      ((wordAt r.w q.b).rotateLeft q.shift.toNat).toNat) cfg.mWord
    let k0 := wordAt r.a q.c0 ^^^ reduce (wb.toNat + (wa.rotateRight q.shift'.toNat).toNat) cfg.mFb5
    let wc := combine cfg.mix6 (k0 ^^^ wordAt r.w q.c) (k1 ^^^ wordAt r.w q.d)
    let wd := combine cfg.mix7 (k0 ^^^ wordAt r.w q.d) (k1 ^^^ wc)
    (∀ j, wordAt (arxSteps cfg q r).w j =
      if j = q.a then wa else if j = q.b then wb else if j = q.c then wc else if j = q.d then wd
      else wordAt r.w j) ∧
    (∀ j, wordAt (arxSteps cfg q r).a j =
      if j = q.c0 then k0 else if j = q.c1 then k1 else wordAt r.a j)

/-- The worked example of 41_arx_round.md R72 to R78 (95_test_vectors.md section 2.2), for every build: round 0's steps
from the key bytes 0x00 to 0x1F and counter 0, in each version. -/
def Obligations.RoundZeroWorkedExample : Prop :=
  ∀ (b : Build) (ver : Version),
    let r := arxSteps (versionConfig ver) (select 0) (startState b
      ⟨0x00010203, 0x04050607, 0x08090A0B, 0x0C0D0E0F, 0x10111213, 0x14151617, 0x18191A1B, 0x1C1D1E1F⟩ 0 0)
    wordAt r.a 0 = 0x9213B752 ∧ wordAt r.a 1 = 0x727C8688 ∧
    r.w = match ver with
      | .v20 => ⟨0x02050803, 0x7A038F12, 0xE46B35DE, 0x34366CB3, 0x10111213, 0x14151617, 0x18191A1B, 0x1C1D1E1F⟩
      | _ => ⟨0x02050803, 0x7A038F12, 0x188C45E5, 0x090F7CCF, 0x10111213, 0x14151617, 0x18191A1B, 0x1C1D1E1F⟩

/-- Round 0's steps 1 to 7 depend only on the key and the counter, not on PERM_TABLE or K_INIT: two builds agree on W
and on A[0] and A[1] (41_arx_round.md R81). -/
def Obligations.RoundZeroStepsNeedNoParameter : Prop :=
  ∀ (b b' : Build) (cfg : RoundConfig) (key : WordFile) (hi lo : Word),
    (arxSteps cfg (select 0) (startState b key hi lo)).w = (arxSteps cfg (select 0) (startState b' key hi lo)).w ∧
    wordAt (arxSteps cfg (select 0) (startState b key hi lo)).a 0 =
      wordAt (arxSteps cfg (select 0) (startState b' key hi lo)).a 0 ∧
    wordAt (arxSteps cfg (select 0) (startState b key hi lo)).a 1 =
      wordAt (arxSteps cfg (select 0) (startState b' key hi lo)).a 1

/-- If W is zero and the round's two constants are zero, steps 1 to 7 leave W, A[c0] and A[c1] zero in every
version (41_arx_round.md R80 item 6). -/
def Obligations.ZeroIsFixedByTheArxSteps : Prop :=
  ∀ (ver : Version) (i : Fin 16) (r : RoundState),
    (∀ j, wordAt r.w j = 0) → wordAt r.a (select i).c0 = 0 → wordAt r.a (select i).c1 = 0 →
    arxSteps (versionConfig ver) (select i) r = r

/-- A V1.0 round and a V1.1 round from the same W and A agree unless step 3's t is at least 2^32 - 5
(41_arx_round.md R82). -/
def Obligations.V10AndV11AgreeUnlessFeedbackReduces : Prop :=
  ∀ (b : Build) (i : Fin 16) (r : RoundState), b.versionConfig = versionConfig →
    (wordAt r.a (select i).c1 ^^^
      arxSum (versionConfig .v10) (arxStep1 (versionConfig .v10) (select i) r)).toNat < 2 ^ 32 - 5 →
    arxRound b .v10 i r = arxRound b .v11 i r

/-- 42_permutation.md R84: output byte p is input byte T[p], with the rule's example. -/
def Obligations.PermuteTakesBytesByTheTable : Prop :=
  (∀ (w : WordFile) (t : Fin 32 → Fin 32) (p : Fin 32), byteAt (permute w t) p = byteAt w (t p)) ∧
  permute ⟨0x00010203, 0x04050607, 0x08090A0B, 0x0C0D0E0F, 0x10111213, 0x14151617, 0x18191A1B, 0x1C1D1E1F⟩
      (fun p => 31 - p) =
    ⟨0x1F1E1D1C, 0x1B1A1918, 0x17161514, 0x13121110, 0x0F0E0D0C, 0x0B0A0908, 0x07060504, 0x03020100⟩

/-- 42_permutation.md R90: the permutation of a round touches only W, is a bijection on the values of W, and keeps the
multiset of the 32 bytes. -/
def Obligations.PermutationIsABijectionOnBytes : Prop :=
  ∀ (b : Build) (i : Fin 16),
    (∀ cfg r, (roundPermute b cfg i r).a = r.a) ∧
    Function.Bijective (fun w : WordFile => permute w (tableOf b i)) ∧
    (∀ w : WordFile, (Finset.univ.val.map (byteAt (permute w (tableOf b i))) : Multiset Byte) =
      Finset.univ.val.map (byteAt w))

/-- A V2.0 block depends on PERM_TABLE[0], [4], [8] and [12] only, under the default configuration
(42_permutation.md R89). -/
def Obligations.V20BlockUsesFourTables : Prop :=
  ∀ (b b' : Build) (key : WordFile) (ctr : BitVec 64),
    b.versionConfig = versionConfig → b'.versionConfig = versionConfig → b.kInit = b'.kInit →
    b.permTable 0 = b'.permTable 0 → b.permTable 4 = b'.permTable 4 →
    b.permTable 8 = b'.permTable 8 → b.permTable 12 = b'.permTable 12 →
    deriveBlock b key ctr .v20 = deriveBlock b' key ctr .v20

/-- K_INIT[0] and K_INIT[1] are never observable: a block does not depend on them (43_driver.md R95). -/
def Obligations.FirstTwoInitialConstantsAreNotObservable : Prop :=
  ∀ (b b' : Build) (key : WordFile) (ctr : BitVec 64) (ver : Version),
    b.versionConfig = b'.versionConfig → b.permTable = b'.permTable →
    (∀ j : Fin 8, 2 ≤ j.val → b.kInit j = b'.kInit j) →
    deriveBlock b key ctr ver = deriveBlock b' key ctr ver

/-- With K_INIT[2..7] zero, any tables, the zero key and counter 0, the block is zero in every version
(95_test_vectors.md section 4, from 41_arx_round.md R80). -/
def Obligations.ZeroInputsGiveTheZeroBlock : Prop :=
  ∀ (b : Build) (ver : Version), b.versionConfig = versionConfig →
    (∀ j : Fin 8, 2 ≤ j.val → b.kInit j = 0) → deriveBlock b WordFile.zero 0 ver = WordFile.zero

/-! ### The register window (10_state.md R9 to R20, 20_memory.md) -/

/-- The map of 20_memory.md R27: each register is found at its own aligned offset, the offsets are the table's, and the
aligned offsets with no register are the reserved ones. -/
def Obligations.RegisterMapIsTheTable : Prop :=
  (∀ r : Reg, regAt (offsetOf r) = some r ∧ misaligned (offsetOf r) = false) ∧
  (offsetOf .ctrl = 0x00 ∧ offsetOf .status = 0x04 ∧ offsetOf .cmd = 0x08 ∧ offsetOf .ctrHi = 0x10 ∧
    offsetOf .ctrLo = 0x14) ∧
  (∀ j : Fin 8, (offsetOf (.key j)).toNat = 0x20 + 4 * j.val ∧ (offsetOf (.din j)).toNat = 0x40 + 4 * j.val ∧
    (offsetOf (.out j)).toNat = 0x60 + 4 * j.val ∧ (offsetOf (.dout j)).toNat = 0x80 + 4 * j.val) ∧
  (∀ off : BitVec 8, off.toNat % 4 = 0 →
    (regAt off = none ↔ off = 0x0C ∨ off = 0x18 ∨ off = 0x1C ∨ 0xA0 ≤ off.toNat))

/-- The window is 256 bytes at the 256-byte-aligned P_BASE: each offset has its own bus address and is recovered from
it, and no address outside has an offset (20_memory.md R26). -/
def Obligations.WindowAddressesAreOneToOne : Prop :=
  pBase % 256 = 0 ∧ (∀ off, windowOffset (busAddress off) = some off) ∧
  (∀ addr, addr < pBase ∨ pBase + 256 ≤ addr → windowOffset addr = none)

/-- 20_memory.md R29: a misaligned read answers the error response and 0, a misaligned write the error response; neither
changes the engine, so neither sets STATUS.ERR nor raises irq; an aligned access never gets an error response. What
`busRead` answers is what every read form hears (ReadsHaveNoSideEffect). -/
def Obligations.MisalignedAccessIsAnErrorResponse : Prop :=
  (∀ (s : State) (off : BitVec 8) (rest : List HostLine), turnOf s = .host → off.toNat % 4 ≠ 0 →
    s.script = .rd off :: rest → step s = .next (afterAccess s ⟨true, some 0⟩)) ∧
  (∀ (s : State) (off : BitVec 8) (v : Word) (rest : List HostLine), turnOf s = .host → off.toNat % 4 ≠ 0 →
    s.script = .wr off v :: rest → step s = .next (afterAccess s ⟨true, none⟩)) ∧
  (∀ (e : Engine) (off : BitVec 8), off.toNat % 4 ≠ 0 → busRead off e = ⟨true, some 0⟩ ∧ readValue off e = 0) ∧
  (∀ (e : Engine) (off : BitVec 8), off.toNat % 4 = 0 →
    (busRead off e).error = false ∧ writeResponse off = ⟨false, none⟩)

/-- 20_memory.md R30: an aligned access to a reserved offset reads 0, ignores writes, gets no error response and changes
no engine state. -/
def Obligations.ReservedOffsetsReadZeroAndIgnoreWrites : Prop :=
  ∀ (s : State) (off : BitVec 8) (rest : List HostLine), turnOf s = .host →
    (off = 0x0C ∨ off = 0x18 ∨ off = 0x1C ∨ (0xA0 ≤ off.toNat ∧ off.toNat % 4 = 0)) →
    (s.script = .rd off :: rest → step s = .next (afterAccess s ⟨false, some 0⟩)) ∧
    (busRead off s.engine = ⟨false, some 0⟩ ∧ readValue off s.engine = 0) ∧
    (∀ v : Word, s.script = .wr off v :: rest → step s = .next (afterAccess s ⟨false, none⟩))

/-- 20_memory.md R31: a write to OUT or DOUT changes nothing, a read of CMD or KEY returns 0 and changes nothing, with
no error response; the reserved bits of CTRL and STATUS read 0 and what is written to them is ignored. -/
def Obligations.ReadOnlyAndWriteOnlyRegisters : Prop :=
  (∀ (s : State) (j : Fin 8) (v : Word) (rest : List HostLine), turnOf s = .host →
    s.script = .wr (BitVec.ofNat 8 (0x60 + 4 * j.val)) v :: rest ∨
      s.script = .wr (BitVec.ofNat 8 (0x80 + 4 * j.val)) v :: rest →
    step s = .next (afterAccess s ⟨false, none⟩)) ∧
  (∀ (s : State) (j : Fin 8) (rest : List HostLine), turnOf s = .host →
    s.script = .rd 0x08 :: rest ∨ s.script = .rd (BitVec.ofNat 8 (0x20 + 4 * j.val)) :: rest →
    step s = .next (afterAccess s ⟨false, some 0⟩)) ∧
  (∀ (e : Engine) (j : Fin 8), busRead 0x08 e = ⟨false, some 0⟩ ∧ readValue 0x08 e = 0 ∧
    busRead (BitVec.ofNat 8 (0x20 + 4 * j.val)) e = ⟨false, some 0⟩ ∧
    readValue (BitVec.ofNat 8 (0x20 + 4 * j.val)) e = 0) ∧
  (∀ e : Engine, (readValue 0x00 e).toNat < 2 ∧ (readValue 0x04 e).toNat < 256) ∧
  (∀ (e : Engine) (v : Word), busWrite 0x00 v e = busWrite 0x00 (v &&& 0x00000001) e ∧
    busWrite 0x04 v e = busWrite 0x04 (v &&& 0x000000FF) e)

/-- 20_memory.md R32: a turn in which the host does not write leaves the engine as it was, and two reads with nothing
between them are answered alike. Whichever line it issues, `rd`, `rd -> VALUE` or `poll`, the host hears what the
engine holds; a poll goes on exactly when (value AND MASK) = VALUE and otherwise stays (30_encoding.md R54). What the
host does after a `rd -> VALUE` that returns another value is left open here (log entry 18). -/
def Obligations.ReadsHaveNoSideEffect : Prop :=
  (∀ s t : State, turnOf s = .host → (∀ off v, s.script.head? ≠ some (.wr off v)) → step s = .next t →
    t.engine = s.engine) ∧
  (∀ (s : State) (off : BitVec 8) (rest : List HostLine), turnOf s = .host → s.script = .rd off :: rest →
    step s = .next (afterAccess s (busRead off s.engine))) ∧
  (∀ (s : State) (off : BitVec 8) (v : Word) (rest : List HostLine), turnOf s = .host →
    s.script = .rdStated off v :: rest →
    ∃ t, step s = .next t ∧ t.engine = s.engine ∧ t.heard = busRead off s.engine :: s.heard ∧
      (readValue off s.engine = v → t = afterAccess s (busRead off s.engine))) ∧
  (∀ (s : State) (off : BitVec 8) (mask v : Word) (rest : List HostLine), turnOf s = .host →
    s.script = .poll off mask v :: rest →
    step s = .next { afterAccess s (busRead off s.engine) with
      script := if readValue off s.engine &&& mask = v then rest else s.script }) ∧
  (∀ (s : State) (off : BitVec 8) (ts : List Turn) (rest : List HostLine), s.turns = .host :: .host :: ts →
    s.script = .rd off :: .rd off :: rest →
    ∃ u, Reaches versionConfig 2 s u ∧ u.engine = s.engine ∧
      u.heard = busRead off s.engine :: busRead off s.engine :: s.heard)

/-- What a host reads in each readable register is its value: STATUS packs its fields by the bits of 10_state.md R10,
CTRL, CTR_HI, CTR_LO, DIN, OUT and DOUT read as they stand (R9, R12, R18 to R20). -/
def Obligations.ReadsReturnTheRegisters : Prop :=
  ∀ e : Engine,
    (readValue 0x04 e).toNat = e.status.busy.toNat + 2 * e.status.done.toNat + 4 * e.status.err.toNat +
      8 * e.status.cwrap.toNat + 16 * e.status.errCode.toNat ∧
    (readValue 0x00 e).toNat = e.ie.toNat ∧ readValue 0x10 e = e.ctrHi ∧ readValue 0x14 e = e.ctrLo ∧
    ∀ j : Fin 8, readValue (BitVec.ofNat 8 (0x40 + 4 * j.val)) e = wordAt e.din j ∧
      readValue (BitVec.ofNat 8 (0x60 + 4 * j.val)) e = wordAt e.out j ∧
      readValue (BitVec.ofNat 8 (0x80 + 4 * j.val)) e = wordAt e.dout j

/-- 10_state.md R9: a write to CTRL sets IE to bit 0 of the value and ignores the rest, changes nothing else, CTRL then
reads as that bit, and IE enables irq; IE is 0 after reset. -/
def Obligations.CtrlKeepsOnlyItsEnableBit : Prop :=
  (∀ (s : State) (v : Word) (rest : List HostLine), turnOf s = .host → s.script = .wr 0x00 v :: rest →
    ∃ t, step s = .next t ∧
      t = { afterAccess s ⟨false, none⟩ with engine := { s.engine with ie := v.getLsbD 0 } } ∧
      busRead 0x00 t.engine = ⟨false, some (v &&& 1)⟩ ∧
      (v.getLsbD 0 = false → irq t.engine = false)) ∧
  State.reset.engine.ie = false

/-- A host write to STATUS clears DONE, ERR with ERRCODE, and CWRAP by bits 1, 2 and 3 of the value, sets nothing, and
changes nothing else (10_state.md R10). -/
def Obligations.StatusWriteOnlyClears : Prop :=
  ∀ (s : State) (v : Word) (rest : List HostLine), turnOf s = .host → s.script = .wr 0x04 v :: rest →
    step s = .next { afterAccess s ⟨false, none⟩ with engine := { s.engine with status :=
      { busy := s.engine.status.busy
        done := s.engine.status.done && !v.getLsbD 1
        err := s.engine.status.err && !v.getLsbD 2
        cwrap := s.engine.status.cwrap && !v.getLsbD 3
        errCode := if v.getLsbD 2 = true then 0 else s.engine.status.errCode } } }

/-- A write to CTR_HI, CTR_LO, KEY[j] or DIN[j] stores the value in that register and nothing else
(20_memory.md R33): the whole next state. -/
def Obligations.PlainWritesStoreAndNothingElse : Prop :=
  ∀ (s : State) (v : Word) (rest : List HostLine), turnOf s = .host →
    (s.script = .wr 0x10 v :: rest →
      step s = .next { afterAccess s ⟨false, none⟩ with engine := { s.engine with ctrHi := v } }) ∧
    (s.script = .wr 0x14 v :: rest →
      step s = .next { afterAccess s ⟨false, none⟩ with engine := { s.engine with ctrLo := v } }) ∧
    (∀ j : Fin 8, s.script = .wr (BitVec.ofNat 8 (0x20 + 4 * j.val)) v :: rest →
      ∃ k, step s = .next { afterAccess s ⟨false, none⟩ with engine := { s.engine with key := k } } ∧
        ∀ i, wordAt k i = if i = j then v else wordAt s.engine.key i) ∧
    (∀ j : Fin 8, s.script = .wr (BitVec.ofNat 8 (0x40 + 4 * j.val)) v :: rest →
      ∃ k, step s = .next { afterAccess s ⟨false, none⟩ with engine := { s.engine with din := k } } ∧
        ∀ i, wordAt k i = if i = j then v else wordAt s.engine.din i)

/-- 60_exceptions.md R117: setting IE while DONE or ERR is 1 raises irq at once; writing 1 to a STATUS bit clears that
source; an accept clears DONE, so irq then follows ERR alone. -/
def Obligations.InterruptFollowsEnableAndSources : Prop :=
  (∀ (s : State) (v : Word) (rest : List HostLine), turnOf s = .host → s.script = .wr 0x00 v :: rest →
    ∃ t, step s = .next t ∧
      irq t.engine = (v.getLsbD 0 && (s.engine.status.done || s.engine.status.err))) ∧
  (∀ (s : State) (v : Word) (rest : List HostLine), turnOf s = .host → s.script = .wr 0x04 v :: rest →
    ∃ t, step s = .next t ∧ irq t.engine = (s.engine.ie &&
      ((s.engine.status.done && !v.getLsbD 1) || (s.engine.status.err && !v.getLsbD 2)))) ∧
  (∀ (s : State) (i : Instr), s.engine.status.busy = false → i.wellFormed = true → i ≠ .nop →
    ∃ t, exec i s = .next t ∧ t.engine.status.done = false ∧ irq t.engine = (s.engine.ie && s.engine.status.err))

/-! ### Reset (70_reset_and_hazards.md) -/

/-- Asserted in any state, reset puts every piece of engine state at its value in one step; the machine's reset state is
that engine, with irq 0 (70_reset_and_hazards.md R129). That the host's script and record, the turns still to come and
freeNext survive the reset is the model's choice (log entry 20), and so is L_OP's 0 as `none` and L_VER's 0 as `v10`
(log entry 10). -/
def Obligations.ResetWorksFromAnyState : Prop :=
  let z : WordFile := ⟨0, 0, 0, 0, 0, 0, 0, 0⟩
  let e : Engine :=
    { ie := false, status := ⟨false, false, false, false, 0⟩, ctrHi := 0, ctrLo := 0, key := z, din := z, out := z,
      dout := z, w := z, a := z, seq := .idle, latch := ⟨.none, .v10, false, 0, 0, z⟩ }
  (∀ s : State, turnOf s = .reset → step s = .next { s with turns := s.turns.tail, engine := e }) ∧
  State.reset.engine = e ∧ irq e = false

/-! ### The machine as a whole -/

/-- VERSION_CONFIG is a parameter of the machine with the default of 40_primitives.md R68 (00_scope.md R6): that the
machine's own step runs the default is log entry 6. A step depends on it only in a sequencer's turn in RUN(i), and there
only on the record of the latched version (40_primitives.md R69); so no command, host write or reset changes it
(10_state.md R21). -/
def Obligations.VersionConfigIsAParameterWithADefault : Prop :=
  (versionConfig .v10 = ⟨.fp, .fp, .xorOnly, .fp, .add, .add, 1, 0⟩ ∧
    versionConfig .v11 = ⟨.fp, .fp, .xorThenReduce, .fp, .add, .add, 1, 0⟩ ∧
    versionConfig .v20 = ⟨.w32, .w32, .xorOnly, .w32, .xor, .add, 4, 0⟩) ∧
  (∀ s : State, step s = stepWith versionConfig s) ∧
  (∀ (vc vc' : Version → RoundConfig) (s : State),
    (turnOf s = .sequencer → s.engine.seq ≠ .idle → s.engine.seq ≠ .emit →
      vc s.engine.latch.ver = vc' s.engine.latch.ver) →
    stepWith vc s = stepWith vc' s)

/-- Every step answers a next state: no command, access or turn stops the machine (60_exceptions.md R115;
20_memory.md R29). -/
def Obligations.EveryStepAnswersANextState : Prop :=
  (∀ s : State, ∃ t, step s = .next t) ∧ (∀ (i : Instr) (s : State), ∃ t, exec i s = .next t)

/-- Every step keeps the engine's invariant, from every state that meets it (10_state.md R10, R16, R17). -/
def Obligations.StepKeepsTheInvariant : Prop :=
  ∀ s t : State, s.Inv → step s = .next t → t.Inv

/-- The reset state meets the engine's invariant. -/
def Obligations.ResetStateMeetsTheInvariant : Prop := State.reset.Inv

/-- A host turn while a command runs leaves W, A, seq, the latches, OUT and DOUT unchanged and BUSY set, whatever the
host does (60_exceptions.md R118, 70_reset_and_hazards.md R134). -/
def Obligations.HostDoesNotDisturbARunningCommand : Prop :=
  ∀ s : State, s.engine.status.busy = true → turnOf s = .host →
    ∃ t, step s = .next t ∧
      t.engine.w = s.engine.w ∧ t.engine.a = s.engine.a ∧ t.engine.seq = s.engine.seq ∧
      t.engine.latch = s.engine.latch ∧ t.engine.out = s.engine.out ∧ t.engine.dout = s.engine.dout ∧
      t.engine.status.busy = true

/-- 43_driver.md R105 on the machine, over every interleaving: a command accepted by an idle engine stays busy, with OUT
and DOUT unchanged, until the sequencer has had 17 turns, whatever the host does between them and short of reset; the
17th completes it with OUT = derive_block of the KEY, CTR and version at accept, DOUT from the DIN at accept, and with
AUTOINC the counter at accept plus 1. It holds for every VERSION_CONFIG, and PERM_TABLE and K_INIT are
opaque. -/
def Obligations.AcceptedCommandCompletesWhateverTheHostDoes : Prop :=
  ∀ (vc : Version → RoundConfig) (s : State) (i : Instr) (op : Operation) (ver : Version) (ai : Bool) (len : BitVec 6),
    s.engine.status.busy = false →
    (i = deriveInstr ver ai ∧ op = .derive ∧ len = 0) ∨
      (i = transformInstr ver ai len ∧ op = .transform ∧ 1 ≤ len.toNat ∧ len.toNat ≤ 32) →
    ∃ t, exec i s = .next t ∧
      ∀ (ts rest : List Turn), Turn.reset ∉ ts → sequencerTurns ts = 16 →
        (∀ m, m ≤ ts.length → ∃ v, Reaches vc m { t with turns := ts ++ .sequencer :: rest } v ∧
          v.engine.status.busy = true ∧ v.engine.out = s.engine.out ∧ v.engine.dout = s.engine.dout) ∧
        ∃ u, Reaches vc (ts.length + 1) { t with turns := ts ++ .sequencer :: rest } u ∧
          u.turns = rest ∧ u.engine.seq = .idle ∧ u.engine.status.busy = false ∧ u.engine.status.done = true ∧
          u.engine.out = deriveBlock (buildWith vc) s.engine.key (ctrOf s.engine) ver ∧
          (op = .derive → u.engine.dout = s.engine.dout) ∧
          (op = .transform → ∀ p : Fin 32, byteAt u.engine.dout p =
            if p.val < len.toNat then
              byteAt s.engine.din p ^^^ byteAt (deriveBlock (buildWith vc) s.engine.key (ctrOf s.engine) ver) p
            else 0) ∧
          (ai = true → ctrOf u.engine = ctrOf s.engine + 1)

/-- 43_driver.md R109: a TRANSFORM, and then a TRANSFORM of its DOUT with the same key, counter, version and length, gives
the data back in bytes 0 to n-1, and both give 0 from byte n on. Each runs alone for its 17 sequencer turns. -/
def Obligations.TransformTwiceGivesTheDataBack : Prop :=
  ∀ (vc : Version → RoundConfig) (s s' : State) (ver : Version) (ai ai' : Bool) (len : BitVec 6), 1 ≤ len.toNat → len.toNat ≤ 32 →
    s.engine.status.busy = false → s'.engine.status.busy = false →
    s'.engine.key = s.engine.key → ctrOf s'.engine = ctrOf s.engine →
    ∃ t u, exec (transformInstr ver ai len) s = .next t ∧ Reaches vc 17 { t with turns := List.replicate 17 .sequencer } u ∧
      (∀ p : Fin 32, len.toNat ≤ p.val → byteAt u.engine.dout p = 0) ∧
      (s'.engine.din = u.engine.dout →
        ∃ t' u', exec (transformInstr ver ai' len) s' = .next t' ∧ Reaches vc 17 { t' with turns := List.replicate 17 .sequencer } u' ∧
          ∀ p : Fin 32, byteAt u'.engine.dout p = if p.val < len.toNat then byteAt s.engine.din p else 0)

/-- The key, W, A and the latches reach the host only through a completion: two machines alike in everything else step
alike until the sequencer completes a command, and even that step leaves them alike in the sequencer's position, BUSY
and DONE (10_state.md R23, 60_exceptions.md R122). -/
def Obligations.SecretsReachTheHostOnlyAtCompletion : Prop :=
  ∀ s s' : State, HostAlike s s' →
    ∃ t t', step s = .next t ∧ step s' = .next t' ∧
      (¬ (turnOf s = .sequencer ∧ s.engine.seq = .emit) → HostAlike t t') ∧
      t.engine.seq = t'.engine.seq ∧ t.engine.status.busy = t'.engine.status.busy ∧
      t.engine.status.done = t'.engine.status.done

/-- The two orders of a host write that clears DONE and a completion: the clear first leaves DONE set, the completion
first leaves it clear (70_reset_and_hazards.md R137). -/
def Obligations.ClearingDoneRacesCompletion : Prop :=
  ∀ (vc : Version → RoundConfig) (s : State) (ts : List Turn) (rest : List HostLine), s.engine.seq = .emit → s.script = .wr 0x04 2 :: rest →
    (s.turns = .host :: .sequencer :: ts → ∃ u, Reaches vc 2 s u ∧ u.engine.status.done = true ∧ u.engine.seq = .idle) ∧
    (s.turns = .sequencer :: .host :: ts → ∃ u, Reaches vc 2 s u ∧ u.engine.status.done = false ∧ u.engine.seq = .idle)

/-- A `waitdone` with no command running and DONE clear never ends: after any number of steps of any interleaving the
poll is still the host's next line (30_encoding.md R55). That it is so with resets among the steps is the model's
choice: the platform's reset leaves the host's script alone (log entry 20). -/
def Obligations.WaitdoneAfterARejectionNeverEnds : Prop :=
  ∀ (vc : Version → RoundConfig) (s : State) (rest : List HostLine), s.engine.seq = .idle → s.engine.status.done = false →
    s.script = waitdone ++ rest →
    ∀ n, ∃ u, Reaches vc n s u ∧ u.script = s.script

/-- With no command running, OUT and DOUT stay as they are through any steps in which the host writes no command and no
reset comes, and CTR stays if the host does not write it (20_memory.md R37 item 3). -/
def Obligations.OutputsStayUntilTheNextCommand : Prop :=
  ∀ (vc : Version → RoundConfig) (s : State), s.Inv → s.engine.status.busy = false → Turn.reset ∉ s.turns →
    (∀ v, HostLine.wr 0x08 v ∉ s.script) →
    ∀ n, ∃ u, Reaches vc n s u ∧ u.engine.status.busy = false ∧
      u.engine.out = s.engine.out ∧ u.engine.dout = s.engine.dout ∧
      ((∀ v, HostLine.wr 0x10 v ∉ s.script ∧ HostLine.wr 0x14 v ∉ s.script) →
        u.engine.ctrHi = s.engine.ctrHi ∧ u.engine.ctrLo = s.engine.ctrLo)

/-- The host program `keystream VER, c` on an idle engine: in every interleaving without reset, when its last line has
been issued the last eight answers the host heard are the words of derive_block(KEY, c, VER); and some interleaving
does finish it (30_encoding.md R55, 43_driver.md R105, 20_memory.md R36). It holds for every VERSION_CONFIG, and
PERM_TABLE and K_INIT are opaque. -/
def Obligations.KeystreamScriptReturnsTheBlock : Prop :=
  ∀ (vc : Version → RoundConfig) (s : State) (ver : Version) (c : BitVec 64), s.Inv → s.engine.status.busy = false →
    s.script = keystream ver c →
    (Turn.reset ∉ s.turns → ∀ n u, Reaches vc n s u → u.script = [] →
      u.heard.take 8 = (List.ofFn fun j : Fin 8 =>
        BusResponse.mk false (some (wordAt (deriveBlock (buildWith vc) s.engine.key c ver) j))).reverse) ∧
    (∃ ts, Turn.reset ∉ ts ∧ ∃ u, Reaches vc ts.length { s with turns := ts } u ∧ u.script = [])

/-- The segments of a buffer are its bytes in order, each 1 to 32 bytes long and all but the last 32, and there are
ceil(n / 32) of them (43_driver.md R108). -/
def Obligations.SegmentsCoverTheBuffer : Prop :=
  ∀ data : List Byte,
    (segments data.length data).flatten = data ∧
    (segments data.length data).length = (data.length + 31) / 32 ∧
    (∀ seg ∈ segments data.length data, 1 ≤ seg.length ∧ seg.length ≤ 32) ∧
    (∀ seg ∈ (segments data.length data).dropLast, seg.length = 32)
end

