-- ==== Sys2Proof/Laws/State.lean ====
section
/-! SUPPORT. One lemma for each field of each named update: later proofs cite these and unfold no record update. -/

namespace Sys2Proof.Machine


/-! ### Rejection (60_exceptions.md R112) -/

@[simp] theorem reject_ie (c : ErrCode) (e : Engine) : (reject c e).ie = e.ie := rfl
@[simp] theorem reject_status (c : ErrCode) (e : Engine) : (reject c e).status = statusReject c e.status := rfl
@[simp] theorem reject_ctrHi (c : ErrCode) (e : Engine) : (reject c e).ctrHi = e.ctrHi := rfl
@[simp] theorem reject_ctrLo (c : ErrCode) (e : Engine) : (reject c e).ctrLo = e.ctrLo := rfl
@[simp] theorem reject_key (c : ErrCode) (e : Engine) : (reject c e).key = e.key := rfl
@[simp] theorem reject_din (c : ErrCode) (e : Engine) : (reject c e).din = e.din := rfl
@[simp] theorem reject_out (c : ErrCode) (e : Engine) : (reject c e).out = e.out := rfl
@[simp] theorem reject_dout (c : ErrCode) (e : Engine) : (reject c e).dout = e.dout := rfl
@[simp] theorem reject_w (c : ErrCode) (e : Engine) : (reject c e).w = e.w := rfl
@[simp] theorem reject_a (c : ErrCode) (e : Engine) : (reject c e).a = e.a := rfl
@[simp] theorem reject_seq (c : ErrCode) (e : Engine) : (reject c e).seq = e.seq := rfl
@[simp] theorem reject_latch (c : ErrCode) (e : Engine) : (reject c e).latch = e.latch := rfl

/-! ### Accept (43_driver.md R93) -/

@[simp] theorem accept_ie (op : Operation) (ver : Version) (ai : Bool) (len : BitVec 6) (e : Engine) :
    (accept op ver ai len e).ie = e.ie := rfl
@[simp] theorem accept_status (op : Operation) (ver : Version) (ai : Bool) (len : BitVec 6) (e : Engine) :
    (accept op ver ai len e).status = statusAccept e.status := rfl
@[simp] theorem accept_ctrHi (op : Operation) (ver : Version) (ai : Bool) (len : BitVec 6) (e : Engine) :
    (accept op ver ai len e).ctrHi = e.ctrHi := rfl
@[simp] theorem accept_ctrLo (op : Operation) (ver : Version) (ai : Bool) (len : BitVec 6) (e : Engine) :
    (accept op ver ai len e).ctrLo = e.ctrLo := rfl
@[simp] theorem accept_key (op : Operation) (ver : Version) (ai : Bool) (len : BitVec 6) (e : Engine) :
    (accept op ver ai len e).key = e.key := rfl
@[simp] theorem accept_din (op : Operation) (ver : Version) (ai : Bool) (len : BitVec 6) (e : Engine) :
    (accept op ver ai len e).din = e.din := rfl
@[simp] theorem accept_out (op : Operation) (ver : Version) (ai : Bool) (len : BitVec 6) (e : Engine) :
    (accept op ver ai len e).out = e.out := rfl
@[simp] theorem accept_dout (op : Operation) (ver : Version) (ai : Bool) (len : BitVec 6) (e : Engine) :
    (accept op ver ai len e).dout = e.dout := rfl
@[simp] theorem accept_w (op : Operation) (ver : Version) (ai : Bool) (len : BitVec 6) (e : Engine) :
    (accept op ver ai len e).w = e.key := rfl
@[simp] theorem accept_a (op : Operation) (ver : Version) (ai : Bool) (len : BitVec 6) (e : Engine) :
    (accept op ver ai len e).a = seedConstants Config.kInit e.ctrHi e.ctrLo := rfl
@[simp] theorem accept_seq (op : Operation) (ver : Version) (ai : Bool) (len : BitVec 6) (e : Engine) :
    (accept op ver ai len e).seq = SeqPos.run 0 := rfl
@[simp] theorem accept_latch (op : Operation) (ver : Version) (ai : Bool) (len : BitVec 6) (e : Engine) :
    (accept op ver ai len e).latch = latchInputs op ver ai len e := rfl

/-! ### Round step (43_driver.md R97) -/

@[simp] theorem roundStep_ie (vc : Version → RoundConfig) (i : Fin 16) (e : Engine) :
    (roundStep vc i e).ie = e.ie := rfl
@[simp] theorem roundStep_status (vc : Version → RoundConfig) (i : Fin 16) (e : Engine) :
    (roundStep vc i e).status = e.status := rfl
@[simp] theorem roundStep_ctrHi (vc : Version → RoundConfig) (i : Fin 16) (e : Engine) :
    (roundStep vc i e).ctrHi = e.ctrHi := rfl
@[simp] theorem roundStep_ctrLo (vc : Version → RoundConfig) (i : Fin 16) (e : Engine) :
    (roundStep vc i e).ctrLo = e.ctrLo := rfl
@[simp] theorem roundStep_key (vc : Version → RoundConfig) (i : Fin 16) (e : Engine) :
    (roundStep vc i e).key = e.key := rfl
@[simp] theorem roundStep_din (vc : Version → RoundConfig) (i : Fin 16) (e : Engine) :
    (roundStep vc i e).din = e.din := rfl
@[simp] theorem roundStep_out (vc : Version → RoundConfig) (i : Fin 16) (e : Engine) :
    (roundStep vc i e).out = e.out := rfl
@[simp] theorem roundStep_dout (vc : Version → RoundConfig) (i : Fin 16) (e : Engine) :
    (roundStep vc i e).dout = e.dout := rfl
@[simp] theorem roundStep_w (vc : Version → RoundConfig) (i : Fin 16) (e : Engine) :
    (roundStep vc i e).w = (arxRound (buildWith vc) e.latch.ver i ⟨e.w, e.a⟩).w := rfl
@[simp] theorem roundStep_a (vc : Version → RoundConfig) (i : Fin 16) (e : Engine) :
    (roundStep vc i e).a = (arxRound (buildWith vc) e.latch.ver i ⟨e.w, e.a⟩).a := rfl
@[simp] theorem roundStep_seq (vc : Version → RoundConfig) (i : Fin 16) (e : Engine) :
    (roundStep vc i e).seq = seqAfter i := rfl
@[simp] theorem roundStep_latch (vc : Version → RoundConfig) (i : Fin 16) (e : Engine) :
    (roundStep vc i e).latch = e.latch := rfl

/-! ### Completion (43_driver.md R98 to R101) -/

@[simp] theorem complete_ie (n : Nat) (e : Engine) : (complete n e).ie = e.ie := rfl
@[simp] theorem complete_status (n : Nat) (e : Engine) :
    (complete n e).status = statusComplete (counterWraps e.latch) e.status := rfl
@[simp] theorem complete_ctrHi (n : Nat) (e : Engine) :
    (complete n e).ctrHi = if e.latch.ai then (nextCounter e.latch).extractLsb' 32 32 else e.ctrHi := rfl
@[simp] theorem complete_ctrLo (n : Nat) (e : Engine) :
    (complete n e).ctrLo = if e.latch.ai then (nextCounter e.latch).extractLsb' 0 32 else e.ctrLo := rfl
@[simp] theorem complete_key (n : Nat) (e : Engine) : (complete n e).key = e.key := rfl
@[simp] theorem complete_din (n : Nat) (e : Engine) : (complete n e).din = e.din := rfl
@[simp] theorem complete_out (n : Nat) (e : Engine) : (complete n e).out = e.w := rfl
@[simp] theorem complete_dout (n : Nat) (e : Engine) :
    (complete n e).dout = if e.latch.op = .transform then transformData e.latch.len e.latch.din e.w else e.dout := rfl
@[simp] theorem complete_seq (n : Nat) (e : Engine) : (complete n e).seq = SeqPos.idle := rfl

/-! ### STATUS (10_state.md R10) -/

@[simp] theorem statusAccept_busy (t : Status) : (statusAccept t).busy = true := rfl
@[simp] theorem statusAccept_done (t : Status) : (statusAccept t).done = false := rfl
@[simp] theorem statusAccept_err (t : Status) : (statusAccept t).err = t.err := rfl
@[simp] theorem statusAccept_cwrap (t : Status) : (statusAccept t).cwrap = t.cwrap := rfl
@[simp] theorem statusAccept_errCode (t : Status) : (statusAccept t).errCode = t.errCode := rfl
@[simp] theorem statusComplete_busy (x : Bool) (t : Status) : (statusComplete x t).busy = false := rfl
@[simp] theorem statusComplete_done (x : Bool) (t : Status) : (statusComplete x t).done = true := rfl
@[simp] theorem statusComplete_err (x : Bool) (t : Status) : (statusComplete x t).err = t.err := rfl
@[simp] theorem statusComplete_cwrap (x : Bool) (t : Status) : (statusComplete x t).cwrap = (t.cwrap || x) := rfl
@[simp] theorem statusComplete_errCode (x : Bool) (t : Status) : (statusComplete x t).errCode = t.errCode := rfl
@[simp] theorem statusClear_busy (v : Word) (t : Status) : (statusClear v t).busy = t.busy := rfl
@[simp] theorem statusClear_done (v : Word) (t : Status) : (statusClear v t).done = (t.done && !v.getLsbD 1) := rfl
@[simp] theorem statusClear_err (v : Word) (t : Status) : (statusClear v t).err = (t.err && !v.getLsbD 2) := rfl
@[simp] theorem statusClear_cwrap (v : Word) (t : Status) : (statusClear v t).cwrap = (t.cwrap && !v.getLsbD 3) := rfl
@[simp] theorem statusClear_errCode (v : Word) (t : Status) :
    (statusClear v t).errCode = if v.getLsbD 2 then 0 else t.errCode := rfl

/-! ### The accept latches (10_state.md R17) -/

@[simp] theorem latchInputs_op (op : Operation) (ver : Version) (ai : Bool) (len : BitVec 6) (e : Engine) :
    (latchInputs op ver ai len e).op = op := rfl
@[simp] theorem latchInputs_ver (op : Operation) (ver : Version) (ai : Bool) (len : BitVec 6) (e : Engine) :
    (latchInputs op ver ai len e).ver = ver := rfl
@[simp] theorem latchInputs_ai (op : Operation) (ver : Version) (ai : Bool) (len : BitVec 6) (e : Engine) :
    (latchInputs op ver ai len e).ai = ai := rfl
@[simp] theorem latchInputs_len (op : Operation) (ver : Version) (ai : Bool) (len : BitVec 6) (e : Engine) :
    (latchInputs op ver ai len e).len = len := rfl
@[simp] theorem latchInputs_ctr (op : Operation) (ver : Version) (ai : Bool) (len : BitVec 6) (e : Engine) :
    (latchInputs op ver ai len e).ctr = (e.ctrHi ++ e.ctrLo : BitVec (32 + 32)) := rfl
@[simp] theorem latchInputs_din (op : Operation) (ver : Version) (ai : Bool) (len : BitVec 6) (e : Engine) :
    (latchInputs op ver ai len e).din = e.din := rfl

/-! ### The host's record and the platform's reset -/

@[simp] theorem hear_engine (r : BusResponse) (s : State) : (hear r s).engine = s.engine := rfl
@[simp] theorem hear_turns (r : BusResponse) (s : State) : (hear r s).turns = s.turns := rfl
@[simp] theorem hear_script (r : BusResponse) (s : State) : (hear r s).script = s.script := rfl
@[simp] theorem hear_heard (r : BusResponse) (s : State) : (hear r s).heard = r :: s.heard := rfl
@[simp] theorem hear_scriptHolds (r : BusResponse) (s : State) : (hear r s).scriptHolds = s.scriptHolds := rfl
@[simp] theorem hear_freeNext (r : BusResponse) (s : State) : (hear r s).freeNext = s.freeNext := rfl
@[simp] theorem hostRead_engine (off : BitVec 8) (s : State) : (hostRead off s).engine = s.engine := rfl
@[simp] theorem hostRead_turns (off : BitVec 8) (s : State) : (hostRead off s).turns = s.turns := rfl
@[simp] theorem hostRead_script (off : BitVec 8) (s : State) : (hostRead off s).script = s.script := rfl
@[simp] theorem hostRead_heard (off : BitVec 8) (s : State) :
    (hostRead off s).heard = busRead off s.engine :: s.heard := rfl
@[simp] theorem hostRead_scriptHolds (off : BitVec 8) (s : State) :
    (hostRead off s).scriptHolds = s.scriptHolds := rfl
@[simp] theorem hostRead_freeNext (off : BitVec 8) (s : State) : (hostRead off s).freeNext = s.freeNext := rfl
@[simp] theorem resetTurn_engine (s : State) : (resetTurn s).engine = Engine.reset := rfl
@[simp] theorem resetTurn_turns (s : State) : (resetTurn s).turns = s.turns := rfl
@[simp] theorem resetTurn_script (s : State) : (resetTurn s).script = s.script := rfl
@[simp] theorem resetTurn_heard (s : State) : (resetTurn s).heard = s.heard := rfl
@[simp] theorem resetTurn_scriptHolds (s : State) : (resetTurn s).scriptHolds = s.scriptHolds := rfl
@[simp] theorem resetTurn_freeNext (s : State) : (resetTurn s).freeNext = s.freeNext := rfl

/-! ### A command word placed as the host's next access -/

@[simp] theorem withFetchWord_engine (s : State) (nbits w : Nat) : (s.withFetchWord nbits w).engine = s.engine := rfl
@[simp] theorem withFetchWord_turns (s : State) (nbits w : Nat) :
    (s.withFetchWord nbits w).turns = .host :: s.turns := rfl
@[simp] theorem withFetchWord_script (s : State) (nbits w : Nat) :
    (s.withFetchWord nbits w).script = .wr (offsetOf .cmd) (BitVec.ofNat 32 (w % 2 ^ nbits)) :: s.script := rfl
@[simp] theorem withFetchWord_heard (s : State) (nbits w : Nat) : (s.withFetchWord nbits w).heard = s.heard := rfl
@[simp] theorem withFetchWord_scriptHolds (s : State) (nbits w : Nat) :
    (s.withFetchWord nbits w).scriptHolds = s.scriptHolds := rfl
@[simp] theorem withFetchWord_freeNext (s : State) (nbits w : Nat) :
    (s.withFetchWord nbits w).freeNext = s.freeNext := rfl

/-! ### The machine as the host's next line finds it -/

@[simp] theorem afterAccess_engine (s : State) (r : BusResponse) : (afterAccess s r).engine = s.engine := rfl
@[simp] theorem afterAccess_turns (s : State) (r : BusResponse) : (afterAccess s r).turns = s.turns.tail := rfl
@[simp] theorem afterAccess_script (s : State) (r : BusResponse) : (afterAccess s r).script = s.script.tail := rfl
@[simp] theorem afterAccess_heard (s : State) (r : BusResponse) : (afterAccess s r).heard = r :: s.heard := rfl
@[simp] theorem afterAccess_scriptHolds (s : State) (r : BusResponse) : (afterAccess s r).scriptHolds = s.scriptHolds := rfl
@[simp] theorem afterAccess_freeNext (s : State) (r : BusResponse) : (afterAccess s r).freeNext = s.freeNext := rfl

end Sys2Proof.Machine
end

