-- ==== Sys2Proof/Laws/Ops.lean ====
section
/-! SUPPORT. What each shared operation can do, said once (43_driver.md, 60_exceptions.md, 20_memory.md). -/

namespace Sys2Proof.Machine

/-- A rejection never touches BUSY, DONE or CWRAP (60_exceptions.md R112). -/
@[simp] theorem statusReject_busy (c : ErrCode) (t : Status) : (statusReject c t).busy = t.busy := by
  unfold statusReject; split <;> rfl

@[simp] theorem statusReject_done (c : ErrCode) (t : Status) : (statusReject c t).done = t.done := by
  unfold statusReject; split <;> rfl

@[simp] theorem statusReject_cwrap (c : ErrCode) (t : Status) : (statusReject c t).cwrap = t.cwrap := by
  unfold statusReject; split <;> rfl

/-- After a rejection an error is recorded (60_exceptions.md R112). -/
@[simp] theorem statusReject_err (c : ErrCode) (t : Status) : (statusReject c t).err = true := by
  unfold statusReject; split <;> simp_all

/-- What issuing a DERIVE or TRANSFORM does to the engine: a BUSY rejection or an accept (43_driver.md R92). -/
theorem issue_cases (op : Operation) (ver : Version) (ai : Bool) (len : BitVec 6) (s : State) :
    (s.engine.status.busy = true ∧ issue op ver ai len s = { s with engine := reject .busy s.engine }) ∨
    (s.engine.status.busy = false ∧ issue op ver ai len s = { s with engine := accept op ver ai len s.engine }) := by
  unfold issue
  cases h : s.engine.status.busy <;> simp

/-- What issuing a TRANSFORM does: a BUSY rejection, a LENGTH rejection, or an accept (43_driver.md R104). -/
theorem issueTransform_cases (ver : Version) (ai : Bool) (len : BitVec 6) (s : State) :
    (s.engine.status.busy = true ∧ issueTransform ver ai len s = { s with engine := reject .busy s.engine }) ∨
    (s.engine.status.busy = false ∧ lenLegal len = false ∧
      issueTransform ver ai len s = { s with engine := reject .length s.engine }) ∨
    (s.engine.status.busy = false ∧ lenLegal len = true ∧
      issueTransform ver ai len s = { s with engine := accept .transform ver ai len s.engine }) := by
  unfold issueTransform issue
  cases h : s.engine.status.busy <;> cases h' : lenLegal len <;> simp

/-- What a command can do to the machine: nothing (NOP), a rejection, or an accept with a legal LEN. -/
theorem exec_cases (i : Instr) (s : State) :
    (s.engine.status.busy = false ∧ i = .nop ∧ exec i s = .next s) ∨
    (∃ c, exec i s = .next { s with engine := reject c s.engine }) ∨
    (s.engine.status.busy = false ∧ ∃ op ver ai len,
      (op = .derive ∧ len = 0 ∨ op = .transform ∧ lenLegal len = true) ∧
      exec i s = .next { s with engine := accept op ver ai len s.engine }) := by
  have hd (ver ai) : (∃ c, issue .derive ver ai 0 s = { s with engine := reject c s.engine }) ∨
      (s.engine.status.busy = false ∧
        issue .derive ver ai 0 s = { s with engine := accept .derive ver ai 0 s.engine }) := by
    rcases issue_cases .derive ver ai 0 s with ⟨-, h⟩ | ⟨hb, h⟩
    · exact .inl ⟨_, h⟩
    · exact .inr ⟨hb, h⟩
  have ht (ver ai len) : (∃ c, issueTransform ver ai len s = { s with engine := reject c s.engine }) ∨
      (s.engine.status.busy = false ∧ lenLegal len = true ∧
        issueTransform ver ai len s = { s with engine := accept .transform ver ai len s.engine }) := by
    rcases issueTransform_cases ver ai len s with ⟨-, h⟩ | ⟨-, -, h⟩ | h
    · exact .inl ⟨_, h⟩
    · exact .inl ⟨_, h⟩
    · exact .inr h
  cases i with
  | nop =>
    simp only [exec, execNop]
    cases hb : s.engine.status.busy
    · exact .inl (by simp)
    · exact .inr (.inl ⟨.busy, by simp⟩)
  | deriveV10 ai | deriveV11 ai | deriveV20 ai =>
    simp only [exec, execDeriveV10, execDeriveV11, execDeriveV20]
    rcases hd _ ai with ⟨c, h⟩ | ⟨hb, h⟩
    · exact .inr (.inl ⟨c, by rw [h]⟩)
    · exact .inr (.inr ⟨hb, _, _, _, _, .inl ⟨rfl, rfl⟩, by rw [h]⟩)
  | transformV10 ai len | transformV11 ai len | transformV20 ai len =>
    simp only [exec, execTransformV10, execTransformV11, execTransformV20]
    rcases ht _ ai len with ⟨c, h⟩ | ⟨hb, hl, h⟩
    · exact .inr (.inl ⟨c, by rw [h]⟩)
    · exact .inr (.inr ⟨hb, _, _, _, _, .inr ⟨rfl, hl⟩, by rw [h]⟩)

/-- What the sequencer's turn does (10_state.md R16). -/
theorem sequencerTurn_cases (vc : Version → RoundConfig) (s : State) :
    (s.engine.seq = .idle ∧ sequencerTurn vc s = s) ∨
    (∃ i, s.engine.seq = .run i ∧ sequencerTurn vc s = { s with engine := roundStep vc i s.engine }) ∨
    (s.engine.seq = .emit ∧
      sequencerTurn vc s = { s with engine := complete s.freeNext s.engine, freeNext := s.freeNext + 1 }) := by
  unfold sequencerTurn
  cases h : s.engine.seq <;> simp

/-- A bus write that is not a command leaves OUT, DOUT, W, A, the sequencer and the latches alone, and of STATUS it
can only clear DONE, ERR with ERRCODE, and CWRAP (20_memory.md R33). -/
theorem busWrite_frame (off : BitVec 8) (v : Word) (e : Engine) :
    (busWrite off v e).out = e.out ∧ (busWrite off v e).dout = e.dout ∧ (busWrite off v e).w = e.w ∧
    (busWrite off v e).a = e.a ∧ (busWrite off v e).seq = e.seq ∧ (busWrite off v e).latch = e.latch ∧
    ((busWrite off v e).status = e.status ∨ (busWrite off v e).status = statusClear v e.status) := by
  unfold busWrite
  split
  · simp
  · cases regAt off with
    | none => simp
    | some r => cases r <;> simp [writeReg]

/-- What a bus write that is not a command can do to the registers a host writes: a register is as before, or has
taken the written value (20_memory.md R33). -/
theorem busWrite_inputs (off : BitVec 8) (v : Word) (e : Engine) :
    ((busWrite off v e).ie = e.ie ∨ (busWrite off v e).ie = v.getLsbD 0) ∧
    ((busWrite off v e).ctrHi = e.ctrHi ∨ (busWrite off v e).ctrHi = v) ∧
    ((busWrite off v e).ctrLo = e.ctrLo ∨ (busWrite off v e).ctrLo = v) ∧
    ((busWrite off v e).key = e.key ∨ ∃ j, (busWrite off v e).key = putWord e.key j v) ∧
    ((busWrite off v e).din = e.din ∨ ∃ j, (busWrite off v e).din = putWord e.din j v) := by
  unfold busWrite
  split
  · simp
  · cases regAt off with
    | none => simp
    | some r => cases r <;> simp [writeReg] <;> exact .inr ⟨_, rfl⟩

/-- The machine's step is the step with the default VERSION_CONFIG (00_scope.md R6). -/
theorem step_eq (s : State) : step s = stepWith versionConfig s := rfl

/-- What one step can do, over the agent whose turn it is. The host's turn reads, writes a register other than CMD,
has a word rejected, or carries out a decoded command; every step answers a next state. -/
theorem step_cases (vc : Version → RoundConfig) (s : State) :
    (turnOf s = .reset ∧ stepWith vc s = .next (resetTurn { s with turns := s.turns.tail })) ∨
    (turnOf s = .sequencer ∧ stepWith vc s = .next (sequencerTurn vc { s with turns := s.turns.tail })) ∨
    (turnOf s = .host ∧ s.script = [] ∧ stepWith vc s = .next { s with turns := s.turns.tail }) ∨
    (turnOf s = .host ∧ ∃ off script holds, (∀ a v, s.script.head? ≠ some (.wr a v)) ∧ stepWith vc s = .next
      { s with turns := s.turns.tail, script := script, scriptHolds := holds,
               heard := busRead off s.engine :: s.heard }) ∨
    (turnOf s = .host ∧ ∃ off v, s.script.head? = some (.wr off v) ∧ off ≠ offsetOf .cmd ∧ stepWith vc s = .next
      { afterAccess s (writeResponse off) with engine := busWrite off v s.engine }) ∨
    (turnOf s = .host ∧ ∃ v c, s.script.head? = some (.wr (offsetOf .cmd) v) ∧
      decode v s.engine.status.busy = .reject c ∧ stepWith vc s = .next
      { afterAccess s (writeResponse (offsetOf .cmd)) with engine := reject c s.engine }) ∨
    (turnOf s = .host ∧ ∃ v i, s.script.head? = some (.wr (offsetOf .cmd) v) ∧
      decode v s.engine.status.busy = .command i ∧
      stepWith vc s = exec i (afterAccess s (writeResponse (offsetOf .cmd)))) := by
  obtain ⟨e, turns, script, heard, holds, n⟩ := s
  rcases turns with _ | ⟨t, ts⟩
  · exact .inr (.inl ⟨rfl, rfl⟩)
  cases t with
  | reset => exact .inl ⟨rfl, rfl⟩
  | sequencer => exact .inr (.inl ⟨rfl, rfl⟩)
  | host =>
    refine .inr (.inr ?_)
    rcases script with _ | ⟨line, rest⟩
    · exact .inl ⟨rfl, rfl, rfl⟩
    refine .inr ?_
    cases line with
    | rd off => exact .inl ⟨rfl, off, rest, holds, by simp, rfl⟩
    | rdStated off v => exact .inl ⟨rfl, off, rest, _, by simp, rfl⟩
    | poll off mask v => exact .inl ⟨rfl, off, _, holds, by simp, rfl⟩
    | wr off v =>
      refine .inr ?_
      by_cases ho : off = offsetOf .cmd
      · subst ho
        refine .inr ?_
        cases hv : decode v e.status.busy with
        | reject c =>
          exact .inl ⟨rfl, v, c, rfl, hv, by simp [stepWith, nextTurn, takeTurn, hostTurn, hostWrite, hv, hear, afterAccess]⟩
        | command i =>
          exact .inr ⟨rfl, v, i, rfl, hv, by simp [stepWith, nextTurn, takeTurn, hostTurn, hostWrite, hv, hear, afterAccess]⟩
      · exact .inl ⟨rfl, off, v, rfl, ho, by simp [stepWith, nextTurn, takeTurn, hostTurn, hostWrite, ho, hear, afterAccess]⟩

/-- The host's turn has the host at the head of the turns. -/
theorem turns_of_host {s : State} (h : turnOf s = .host) : ∃ ts, s.turns = .host :: ts := by
  unfold turnOf at h
  cases ht : s.turns with
  | nil => simp [ht] at h
  | cons t ts => simp [ht] at h; exact ⟨ts, by rw [h]⟩

/-- The step of a host write: at CMD the verdict decides, elsewhere the write stores (20_memory.md R33). -/
theorem step_of_write {vc : Version → RoundConfig} {s : State} {off : BitVec 8} {v : Word} {rest : List HostLine} (h : turnOf s = .host)
    (hs : s.script = .wr off v :: rest) :
    stepWith vc s =
      if off = offsetOf .cmd then
        match decode v s.engine.status.busy with
        | .reject c => .next { afterAccess s (writeResponse off) with engine := reject c s.engine }
        | .command i => exec i (afterAccess s (writeResponse off))
      else .next { afterAccess s (writeResponse off) with engine := busWrite off v s.engine } := by
  obtain ⟨e, turns, script, heard, holds, n⟩ := s
  obtain ⟨ts, h⟩ := turns_of_host h
  dsimp only at *
  subst h hs
  simp only [stepWith, nextTurn, takeTurn, hostTurn, hostWrite, hear, afterAccess, List.tail]
  by_cases ho : off = offsetOf .cmd
  · simp only [if_pos ho]
    cases decode v e.status.busy <;> rfl
  · simp only [if_neg ho]

/-- The step of a host read (20_memory.md R32). -/
theorem step_of_read {vc : Version → RoundConfig} {s : State} {off : BitVec 8} {rest : List HostLine} (h : turnOf s = .host)
    (hs : s.script = .rd off :: rest) : stepWith vc s = .next (afterAccess s (busRead off s.engine)) := by
  obtain ⟨e, turns, script, heard, holds, n⟩ := s
  obtain ⟨ts, h⟩ := turns_of_host h
  dsimp only at *
  subst h hs
  rfl

/-- The step of the sequencer's turn. -/
theorem step_of_sequencer {vc : Version → RoundConfig} {s : State} (h : turnOf s = .sequencer) :
    stepWith vc s = .next (sequencerTurn vc { s with turns := s.turns.tail }) := by
  rcases step_cases vc s with ⟨h', e⟩ | ⟨h', e⟩ | ⟨h', e⟩ | ⟨h', e⟩ | ⟨h', e⟩ | ⟨h', e⟩ | ⟨h', e⟩ <;>
    first | exact e | (rw [h] at h'; cases h')

/-- The step of the platform's reset. -/
theorem step_of_reset {vc : Version → RoundConfig} {s : State} (h : turnOf s = .reset) :
    stepWith vc s = .next (resetTurn { s with turns := s.turns.tail }) := by
  rcases step_cases vc s with ⟨h', e⟩ | ⟨h', e⟩ | ⟨h', e⟩ | ⟨h', e⟩ | ⟨h', e⟩ | ⟨h', e⟩ | ⟨h', e⟩ <;>
    first | exact e | (rw [h] at h'; cases h')

/-- What one step can do to the engine, over the agent whose turn it is. -/
theorem step_engine_cases {vc : Version → RoundConfig} {s t : State} (h : stepWith vc s = .next t) :
    (turnOf s = .reset ∧ t.engine = Engine.reset) ∨
    (turnOf s = .sequencer ∧ (s.engine.seq = .idle ∧ t.engine = s.engine ∨
      (∃ i, s.engine.seq = .run i ∧ t.engine = roundStep vc i s.engine) ∨
      (s.engine.seq = .emit ∧ t.engine = complete s.freeNext s.engine))) ∨
    (turnOf s = .host ∧ t.engine = s.engine) ∨
    (turnOf s = .host ∧ ∃ off v, s.script.head? = some (.wr off v) ∧ off ≠ offsetOf .cmd ∧
      t.engine = busWrite off v s.engine) ∨
    (turnOf s = .host ∧ ∃ c, t.engine = reject c s.engine) ∨
    (turnOf s = .host ∧ s.engine.status.busy = false ∧ ∃ v i, s.script.head? = some (.wr (offsetOf .cmd) v) ∧
      decode v false = .command i ∧ i ≠ .nop ∧ ∃ op ver ai len,
        (op = .derive ∧ len = 0 ∨ op = .transform ∧ lenLegal len = true) ∧
        t.engine = accept op ver ai len s.engine) := by
  rcases step_cases vc s with ⟨h', e⟩ | ⟨h', e⟩ | ⟨h', _, e⟩ | ⟨h', _, _, _, _, e⟩ | ⟨h', off, v, hv, ho, e⟩ |
    ⟨h', v, c, hv, ho, e⟩ | ⟨h', v, i, hv, hd, e⟩
  · cases e.symm.trans h; exact .inl ⟨h', rfl⟩
  · cases e.symm.trans h
    refine .inr (.inl ⟨h', ?_⟩)
    rcases sequencerTurn_cases vc { s with turns := s.turns.tail } with ⟨a, b⟩ | ⟨i, a, b⟩ | ⟨a, b⟩
    · exact .inl ⟨a, by rw [b]⟩
    · exact .inr (.inl ⟨i, a, by rw [b]⟩)
    · exact .inr (.inr ⟨a, by rw [b]⟩)
  · cases e.symm.trans h; exact .inr (.inr (.inl ⟨h', rfl⟩))
  · cases e.symm.trans h; exact .inr (.inr (.inl ⟨h', rfl⟩))
  · cases e.symm.trans h; exact .inr (.inr (.inr (.inl ⟨h', off, v, hv, ho, rfl⟩)))
  · cases e.symm.trans h; exact .inr (.inr (.inr (.inr (.inl ⟨h', c, rfl⟩))))
  · rw [e] at h
    cases hb : s.engine.status.busy with
    | true => rw [hb] at hd; simp [decode] at hd
    | false =>
      rw [hb] at hd
      by_cases hi : i = .nop
      · subst hi
        simp only [exec, execNop, afterAccess_engine, hb] at h
        cases h
        exact .inr (.inr (.inl ⟨h', rfl⟩))
      rcases exec_cases i (afterAccess s (writeResponse (offsetOf .cmd))) with
        ⟨_, hn, _⟩ | ⟨c, b⟩ | ⟨_, op, ver, ai, len, hl, b⟩
      · exact absurd hn hi
      · cases b.symm.trans h; exact .inr (.inr (.inr (.inr (.inl ⟨h', c, rfl⟩))))
      · cases b.symm.trans h
        exact .inr (.inr (.inr (.inr (.inr ⟨h', rfl, v, i, hv, hd, hi, op, ver, ai, len, hl, rfl⟩))))

/-- One more step of a run. -/
theorem reaches_succ {vc : Version → RoundConfig} {n : Nat} {s t : State} :
    Reaches vc (n + 1) s t ↔ ∃ u, stepWith vc s = .next u ∧ Reaches vc n u t := Iff.rfl

@[simp] theorem reaches_zero {vc : Version → RoundConfig} {s t : State} : Reaches vc 0 s t ↔ s = t := Iff.rfl

/-- A run leads to one state only. -/
theorem reaches_unique {vc : Version → RoundConfig} {n : Nat} {s t t' : State} (h : Reaches vc n s t) (h' : Reaches vc n s t') : t = t' := by
  induction n generalizing s with
  | zero => exact h.symm.trans h'
  | succ n ih =>
    obtain ⟨u, hu, hr⟩ := h
    obtain ⟨u', hu', hr'⟩ := h'
    cases hu.symm.trans hu'
    exact ih hr hr'

/-- A run of `m + n` steps is a run of `m` steps and then one of `n`. -/
theorem reaches_add {vc : Version → RoundConfig} {m n : Nat} {s t : State} : Reaches vc (m + n) s t ↔ ∃ u, Reaches vc m s u ∧ Reaches vc n u t := by
  induction m generalizing s with
  | zero => simp
  | succ m ih =>
    rw [Nat.succ_add, reaches_succ]
    constructor
    · rintro ⟨v, hv, hr⟩
      obtain ⟨u, h1, h2⟩ := ih.mp hr
      exact ⟨u, ⟨v, hv, h1⟩, h2⟩
    · rintro ⟨u, ⟨v, hv, h1⟩, h2⟩
      exact ⟨v, hv, ih.mpr ⟨u, h1, h2⟩⟩

end Sys2Proof.Machine
end

