-- ==== Sys2Proof/Laws/PerInstr.lean ====
section
/-! SUPPORT. A statement about every command as syntax, proved constructor by constructor: its word has the bits its
row of the opcode table fixes (30_encoding.md R51). -/

namespace Sys2Proof.Laws

/-- The mask of a command's row (30_encoding.md R51): the bits the row fixes. -/
def rowMask : Instr → Word
  | .nop => 0xFFFFFFFF
  | .deriveV10 _ => 0xFFFFFFBF
  | .deriveV11 _ => 0xFFFFFFBF
  | .deriveV20 _ => 0xFFFFFFBF
  | .transformV10 _ _ => 0xFFFFC0BF
  | .transformV11 _ _ => 0xFFFFC0BF
  | .transformV20 _ _ => 0xFFFFC0BF

/-- The match of a command's row (30_encoding.md R51): the values of the fixed bits. -/
def rowMatch : Instr → Word
  | .nop => 0x00000000
  | .deriveV10 _ => 0x00000001
  | .deriveV11 _ => 0x00000011
  | .deriveV20 _ => 0x00000021
  | .transformV10 _ _ => 0x00000002
  | .transformV11 _ _ => 0x00000012
  | .transformV20 _ _ => 0x00000022

/-- The word of a command agrees with its row on every fixed bit. -/
def EncodeMatchesRow.Statement (i : Instr) : Prop := encode i &&& rowMask i = rowMatch i

theorem EncodeMatchesRow.nop : EncodeMatchesRow.Statement .nop := by
  unfold EncodeMatchesRow.Statement; decide

theorem EncodeMatchesRow.deriveV10 (ai : Bool) : EncodeMatchesRow.Statement (.deriveV10 ai) := by
  unfold EncodeMatchesRow.Statement; revert ai; decide

theorem EncodeMatchesRow.deriveV11 (ai : Bool) : EncodeMatchesRow.Statement (.deriveV11 ai) := by
  unfold EncodeMatchesRow.Statement; revert ai; decide

theorem EncodeMatchesRow.deriveV20 (ai : Bool) : EncodeMatchesRow.Statement (.deriveV20 ai) := by
  unfold EncodeMatchesRow.Statement; revert ai; decide

theorem EncodeMatchesRow.transformV10 (ai : Bool) (len : BitVec 6) :
    EncodeMatchesRow.Statement (.transformV10 ai len) := by
  unfold EncodeMatchesRow.Statement; revert ai len; decide

theorem EncodeMatchesRow.transformV11 (ai : Bool) (len : BitVec 6) :
    EncodeMatchesRow.Statement (.transformV11 ai len) := by
  unfold EncodeMatchesRow.Statement; revert ai len; decide

theorem EncodeMatchesRow.transformV20 (ai : Bool) (len : BitVec 6) :
    EncodeMatchesRow.Statement (.transformV20 ai len) := by
  unfold EncodeMatchesRow.Statement; revert ai len; decide

end Sys2Proof.Laws
end

