-- ==== Sys2Proof/Laws/Words.lean ====
section
/-! SUPPORT. What the accessors of word files, the byte view, the rotations and the reduction answer
(40_primitives.md). -/

namespace Sys2Proof.Machine

@[simp] theorem wordAt_fileOf (f : Fin 8 → Word) (j : Fin 8) : wordAt (fileOf f) j = f j := by
  fin_cases j <;> rfl

@[simp] theorem fileOf_wordAt (x : WordFile) : fileOf (wordAt x) = x := rfl

/-- Two files with the same words are the same file. -/
theorem wordFile_ext {x y : WordFile} (h : ∀ j, wordAt x j = wordAt y j) : x = y := by
  rw [← fileOf_wordAt x, ← fileOf_wordAt y, funext h]

/-- What a write to a word file leaves: the written word at its place, every other word as it was. -/
@[simp] theorem wordAt_putWord (x : WordFile) (j k : Fin 8) (v : Word) :
    wordAt (putWord x j v) k = if k = j then v else wordAt x k := by simp [putWord]

@[simp] theorem wordAt_zero (j : Fin 8) : wordAt WordFile.zero j = 0 := by fin_cases j <;> rfl

@[simp] theorem wordAt_xorFile (x y : WordFile) (j : Fin 8) :
    wordAt (xorFile x y) j = wordAt x j ^^^ wordAt y j := by simp [xorFile]

/-- Byte `4 j + r` of the word made of bytes `b` is `b (4 j + r)` (40_primitives.md R65). -/
theorem wordOfBytes_byte (b : Fin 32 → Byte) (j : Fin 8) (r : Fin 4) :
    (wordOfBytes b j).extractLsb' (24 - 8 * r.val) 8 = b ⟨4 * j.val + r.val, by omega⟩ := by
  apply BitVec.eq_of_getLsbD_eq
  intro k hk
  fin_cases r <;> simp only [wordOfBytes, BitVec.getLsbD_extractLsb', BitVec.getLsbD_append, hk]
  · simp [show ¬ 24 + k < 8 by omega, show ¬ 24 + k - 8 < 8 by omega, show ¬ 24 + k - 8 - 8 < 8 by omega,
      show 24 + k - 8 - 8 - 8 = k by omega]
  · simp [show ¬ 16 + k < 8 by omega, show ¬ 16 + k - 8 < 8 by omega, show 16 + k - 8 - 8 = k by omega, hk]
  · simp [show ¬ 8 + k < 8 by omega, show 8 + k - 8 = k by omega, hk]
  · simp [hk]

/-- Byte `p` of the words of 32 bytes is byte `p` (40_primitives.md R65). -/
@[simp] theorem byteAt_wordsOf (b : Fin 32 → Byte) (p : Fin 32) : byteAt (wordsOf b) p = b p := by
  have h := wordOfBytes_byte b (byteWord p) ⟨p.val % 4, by omega⟩
  have hp : 4 * (byteWord p).val + p.val % 4 = p.val := by simp [byteWord]; omega
  simpa [byteAt, wordsOf, hp] using h

/-- A word file is made of its own bytes (40_primitives.md R65). -/
@[simp] theorem wordsOf_byteAt (x : WordFile) : wordsOf (byteAt x) = x := by
  apply wordFile_ext
  intro j
  apply BitVec.eq_of_getLsbD_eq
  intro k hk
  have hb (r : Nat) (hr : r < 4) : byteWord ⟨4 * j.val + r, by omega⟩ = j := by
    apply Fin.ext; simp [byteWord]; omega
  have hm (r : Nat) (hr : r < 4) : (4 * j.val + r) % 4 = r := by omega
  have h0 := hb 0 (by omega)
  have h1 := hb 1 (by omega)
  have h2 := hb 2 (by omega)
  have h3 := hb 3 (by omega)
  have m1 := hm 1 (by omega)
  have m2 := hm 2 (by omega)
  have m3 := hm 3 (by omega)
  simp only [Nat.add_zero] at h0
  simp only [wordsOf, wordAt_fileOf, wordOfBytes, byteAt, h0, h1, h2, h3, m1, m2, m3,
    BitVec.getLsbD_append, BitVec.getLsbD_extractLsb', Nat.mul_mod_right]
  rcases (by omega : k < 8 ∨ (8 ≤ k ∧ k < 16) ∨ (16 ≤ k ∧ k < 24) ∨ 24 ≤ k) with h | h | h | h
  · simp [h]
  · simp [show ¬ k < 8 by omega, show k - 8 < 8 by omega, show 8 + (k - 8) = k by omega]
  · simp [show ¬ k < 8 by omega, show ¬ k - 8 < 8 by omega, show k - 8 - 8 < 8 by omega,
      show 16 + (k - 8 - 8) = k by omega]
  · simp [show ¬ k < 8 by omega, show ¬ k - 8 < 8 by omega, show ¬ k - 8 - 8 < 8 by omega,
      show k - 8 - 8 - 8 < 8 by omega, show 24 + (k - 8 - 8 - 8) = k by omega]

/-- Two files with the same bytes are the same file. -/
theorem wordFile_byte_ext {x y : WordFile} (h : ∀ p, byteAt x p = byteAt y p) : x = y := by
  rw [← wordsOf_byteAt x, ← wordsOf_byteAt y, funext h]

/-- The rotation by the formula of 40_primitives.md R56 is the library's rotation. -/
theorem rotr_eq (x : Word) (s : BitVec 5) : rotr x s = x.rotateRight s.toNat := by
  have h : s.toNat < 32 := s.isLt
  simp [rotr, BitVec.rotateRight, BitVec.rotateRightAux, Nat.mod_eq_of_lt h]

/-- The rotation by the formula of 40_primitives.md R57 is the library's rotation. -/
theorem rotl_eq (x : Word) (s : BitVec 5) : rotl x s = x.rotateLeft s.toNat := by
  have h : s.toNat < 32 := s.isLt
  simp [rotl, BitVec.rotateLeft, BitVec.rotateLeftAux, Nat.mod_eq_of_lt h]

@[simp] theorem red_zero (m : Modulus) : red 0 m = 0 := by cases m <;> rfl

/-- A reduction under fp is the remainder, below fp (40_primitives.md R62, R63). -/
theorem red_fp_toNat (x : Nat) : (red x .fp).toNat = x % fp := by
  have h : x % fp < fp := Nat.mod_lt _ (by decide)
  simp only [red, BitVec.toNat_ofNat]
  exact Nat.mod_eq_of_lt (by simp [fp] at h ⊢; omega)

/-- A reduction under 2^32 is the remainder (40_primitives.md R62). -/
theorem red_w32_toNat (x : Nat) : (red x .w32).toNat = x % 2 ^ 32 := by simp [red]

/-- What `permute` answers, byte by byte (42_permutation.md R84). -/
@[simp] theorem byteAt_permute (w : WordFile) (t : Fin 32 → Fin 32) (p : Fin 32) :
    byteAt (permute w t) p = byteAt w (t p) := by simp [permute]

end Sys2Proof.Machine
end

