-- ==== Sys2Proof/Laws/Round.lean ====
section
/-! SUPPORT. What each step of a round leaves unchanged, and what the round's parts answer (41_arx_round.md). -/

namespace Sys2Proof.Machine

section
variable (cfg : RoundConfig) (q : Selection) (r : RoundState)

@[simp] theorem arxStep1_a : (arxStep1 cfg q r).a = r.a := rfl
@[simp] theorem arxStep3_w : (arxStep3 cfg q r).w = r.w := rfl
@[simp] theorem arxStep4_a : (arxStep4 cfg q r).a = r.a := rfl
@[simp] theorem arxStep5_w : (arxStep5 cfg q r).w = r.w := rfl
@[simp] theorem arxStep6_a : (arxStep6 cfg q r).a = r.a := rfl
@[simp] theorem arxStep7_a : (arxStep7 cfg q r).a = r.a := rfl

/-- Step 1 writes one word of W (41_arx_round.md R72). -/
theorem arxStep1_w (k : Fin 8) : wordAt (arxStep1 cfg q r).w k =
    if k = q.a then
      red ((wordAt r.w q.a).toNat + (wordAt r.a q.c0).toNat + (rotr (wordAt r.w q.a) q.shift).toNat) cfg.mWord
    else wordAt r.w k := by simp [arxStep1]

/-- Steps 2 and 3 write one constant (41_arx_round.md R73, R74). -/
theorem arxStep3_a (k : Fin 8) : wordAt (arxStep3 cfg q r).a k =
    if k = q.c1 then feedback3 cfg.fb3 (wordAt r.a q.c1 ^^^ red (sumWords r.w) cfg.mSum)
    else wordAt r.a k := by simp [arxStep3, arxSum]

/-- Step 4 writes one word of W (41_arx_round.md R75). -/
theorem arxStep4_w (k : Fin 8) : wordAt (arxStep4 cfg q r).w k =
    if k = q.b then
      red ((wordAt r.w q.b).toNat + (wordAt r.a q.c1).toNat + (rotl (wordAt r.w q.b) q.shift).toNat) cfg.mWord
    else wordAt r.w k := by simp [arxStep4]

/-- Step 5 writes one constant (41_arx_round.md R76). -/
theorem arxStep5_a (k : Fin 8) : wordAt (arxStep5 cfg q r).a k =
    if k = q.c0 then
      wordAt r.a q.c0 ^^^ red ((wordAt r.w q.b).toNat + (rotr (wordAt r.w q.a) q.shift').toNat) cfg.mFb5
    else wordAt r.a k := by simp [arxStep5]

/-- Step 6 writes one word of W (41_arx_round.md R77). -/
theorem arxStep6_w (k : Fin 8) : wordAt (arxStep6 cfg q r).w k =
    if k = q.c then
      mixTerms cfg.mix6 cfg.mWord (wordAt r.a q.c0 ^^^ wordAt r.w q.c) (wordAt r.a q.c1 ^^^ wordAt r.w q.d)
    else wordAt r.w k := by simp [arxStep6]

/-- Step 7 writes one word of W (41_arx_round.md R78). -/
theorem arxStep7_w (k : Fin 8) : wordAt (arxStep7 cfg q r).w k =
    if k = q.d then
      mixTerms cfg.mix7 cfg.mWord (wordAt r.a q.c0 ^^^ wordAt r.w q.d) (wordAt r.a q.c1 ^^^ wordAt r.w q.c)
    else wordAt r.w k := by simp [arxStep7]

end

/-- The permutation of a round leaves A alone (42_permutation.md R90). -/
@[simp] theorem roundPermute_a (b : Build) (cfg : RoundConfig) (i : Fin 16) (r : RoundState) :
    (roundPermute b cfg i r).a = r.a := by unfold roundPermute; split <;> rfl

/-- What the permutation of a round answers (42_permutation.md R88). -/
theorem roundPermute_w (b : Build) (cfg : RoundConfig) (i : Fin 16) (r : RoundState) :
    (roundPermute b cfg i r).w = if permutes cfg i then permute r.w (b.permTable i) else r.w := by
  unfold roundPermute; split <;> rfl

/-- What a whole round answers for A: what the seven steps leave (42_permutation.md R90). -/
@[simp] theorem arxRound_a (b : Build) (ver : Version) (i : Fin 16) (r : RoundState) :
    (arxRound b ver i r).a = (arxSteps (b.versionConfig ver) (select i) r).a := by simp [arxRound]

/-- A round reads of its build only the version's configuration and, if it permutes, its table. -/
theorem round_congr {b b' : Build} {ver : Version} {i : Fin 16} (r : RoundState)
    (hc : b.versionConfig ver = b'.versionConfig ver)
    (ht : permutes (b.versionConfig ver) i = true → b.permTable i = b'.permTable i) :
    arxRound b ver i r = arxRound b' ver i r := by
  unfold arxRound roundPermute tableOf
  rw [← hc]
  split
  · rw [ht ‹_›]
  · rfl

@[simp] theorem roundsBelow_zero (b : Build) (ver : Version) (r : RoundState) : roundsBelow b ver r 0 = r := rfl

theorem roundsBelow_succ (b : Build) (ver : Version) (r : RoundState) (n : Nat) :
    roundsBelow b ver r (n + 1) = arxRound b ver (Fin.ofNat 16 n) (roundsBelow b ver r n) := rfl

end Sys2Proof.Machine
end

