-- ==== Sys2Proof/Tests/Slice0.lean ====
section
/-! SUPPORT. Tests from the vectors of 95_test_vectors.md and from the encoding table, the smoke test of WellFormed, and
for every statement with hypotheses a witness that meets them. -/

namespace Sys2Proof.Tests

open Sys2Proof.Machine

/-! ### Small states -/

/-- The idle machine whose host issues these lines next, one turn each. -/
def host (lines : List HostLine) : State :=
  { State.reset with turns := lines.map fun _ => Turn.host, script := lines }

/-- The same with an engine of its own. -/
def hostOn (e : Engine) (lines : List HostLine) : State := { host lines with engine := e }

/-- An engine that runs a command of these latches, at this position. -/
def running (l : Latches) (q : SeqPos) : Engine :=
  { Engine.reset with status := { Status.reset with busy := true }, seq := q, latch := l }

/-- Latches of a DERIVE.V10. -/
def deriveLatches (ai : Bool) (ctr : BitVec 64) : Latches := ⟨.derive, .v10, ai, 0, ctr, WordFile.zero⟩

/-- Latches of a TRANSFORM.V20 of all-ones data. -/
def transformLatches (len : BitVec 6) : Latches :=
  ⟨.transform, .v20, true, len, 7, WordFile.replicate 0xFFFFFFFF⟩

/-- An engine with this error recorded. -/
def failed (code : BitVec 4) : Engine :=
  { Engine.reset with status := { Status.reset with err := true, errCode := code } }

/-- A state on the sequencer's turn. -/
def seqOn (e : Engine) : State := { State.reset with engine := e, turns := [.sequencer] }

/-- What a step leaves of a view of the machine, none if it stops. -/
def view {α : Type} (f : State → α) (s : State) : Option α :=
  match step s with
  | .next t => some (f t)
  | .fault _ => none
  | .refused _ => none

/-- The STATUS word. -/
def statusOf (s : State) : Word := statusWord s.engine.status

/-- The key bytes 0x00 to 0x1F (95_test_vectors.md section 2.1). -/
def keyBytes : WordFile :=
  ⟨0x00010203, 0x04050607, 0x08090A0B, 0x0C0D0E0F, 0x10111213, 0x14151617, 0x18191A1B, 0x1C1D1E1F⟩

/-- Table t of the demonstration parameters of 95_test_vectors.md: byte 5 p + t mod 32. -/
def demoTable (t : Fin 16) : Equiv.Perm (Fin 32) where
  toFun p := Fin.ofNat 32 (5 * p.val + t.val)
  invFun p := Fin.ofNat 32 (13 * (p.val + 32 - t.val))
  left_inv := by intro p; ext; simp only [Fin.ofNat]; omega
  right_inv := by intro p; ext; simp only [Fin.ofNat]; omega

/-- The demonstration build of 95_test_vectors.md. -/
def demo : Build := ⟨demoTable, fun j => BitVec.ofNat 32 (0x11111111 * j.val), versionConfig⟩

/-- A build whose tables are the identity and whose K_INIT is 0. -/
def zeroBuild : Build := ⟨fun _ => Equiv.refl _, fun _ => 0, versionConfig⟩

/-! ### The decoder: words of 30_encoding.md R51 and 95_test_vectors.md section 6 -/

theorem test_decode_nop : decode 0b00000000000000000000000000000000 false = .command .nop := by decide
theorem test_decode_deriveV10 : decode 0b00000000000000000000000001000001 false = .command (.deriveV10 true) := by decide
theorem test_decode_deriveV11 : decode 0b00000000000000000000000000010001 false = .command (.deriveV11 false) := by decide
theorem test_decode_deriveV20 : decode 0b00000000000000000000000001100001 false = .command (.deriveV20 true) := by decide
theorem test_decode_transformV10 : decode 0b00000000000000000000000100000010 false = .command (.transformV10 false 1) := by decide
theorem test_decode_transformV11 : decode 0b00000000000000000010000000010010 false = .command (.transformV11 false 32) := by decide
theorem test_decode_transformV20 : decode 0b00000000000000000010000001100010 false = .command (.transformV20 true 32) := by decide

/-- Rejected words in the order of the checks (60_exceptions.md R114, 95_test_vectors.md section 6). -/
theorem test_decode_rejections :
    decode 0x0000000F true = .reject .busy ∧ decode 0 true = .reject .busy ∧
    decode 0x8000000F false = .reject .rsvd ∧ decode 0x00004000 false = .reject .rsvd ∧
    decode 0x00008002 false = .reject .rsvd ∧ decode 0x00000081 false = .reject .rsvd ∧
    decode 0x00000033 false = .reject .opcode ∧ decode 0x00000003 false = .reject .opcode ∧
    decode 0x00000010 false = .reject .rsvd ∧ decode 0x00000040 false = .reject .rsvd ∧
    decode 0x00000100 false = .reject .rsvd ∧ decode 0x00000131 false = .reject .version ∧
    decode 0x00000032 false = .reject .version ∧ decode 0x00000101 false = .reject .rsvd ∧
    decode 0x00000002 false = .reject .length ∧ decode 0x00002102 false = .reject .length ∧
    decode 0x00003F02 false = .reject .length := by decide

/-- Ill-formed terms, one for each check: LEN 0 and LEN 33 in each version (30_encoding.md R47). -/
theorem test_wellFormed_refuses :
    (Instr.transformV10 false 0).wellFormed = false ∧ (Instr.transformV10 true 33).wellFormed = false ∧
    (Instr.transformV11 false 0).wellFormed = false ∧ (Instr.transformV11 true 33).wellFormed = false ∧
    (Instr.transformV20 false 0).wellFormed = false ∧ (Instr.transformV20 true 33).wellFormed = false := by decide

theorem test_wellFormed_admits : Instr.nop.wellFormed = true ∧ (Instr.deriveV11 true).wellFormed = true ∧
    (Instr.transformV10 false 1).wellFormed = true ∧ (Instr.transformV20 false 32).wellFormed = true := by decide

theorem test_decodeTableWord : decodeTableWord 32 0x2062 = some (.transformV20 true 32) ∧
    decodeTableWord 32 0x31 = none := by decide

/-- The word `withFetchWord` places is the command the next step runs. -/
theorem test_withFetchWord : view (fun t => (t.engine.latch.op, t.engine.latch.ver, t.engine.seq))
    (State.reset.withFetchWord 32 0x11) = some (.derive, .v11, .run 0) := by decide

/-! ### One step of each command (95_test_vectors.md section 7) -/

theorem test_nop_idle : view statusOf (host [.wr 0x08 0x00000000]) = some 0x00000000 := by decide
theorem test_nop_busy : view statusOf (hostOn (running (deriveLatches false 0) (.run 3)) [.wr 0x08 0]) = some 0x15 := by
  decide
theorem test_deriveV10_accept : view (fun t => (statusOf t, t.engine.seq, t.engine.latch.ver)) (host [.wr 0x08 0x1]) =
    some (0x00000001, .run 0, .v10) := by decide
theorem test_deriveV10_latches_counter : view (fun t => (t.engine.latch.ctr, t.engine.latch.ai, t.engine.a.w0, t.engine.a.w1))
    (hostOn { Engine.reset with ctrHi := 0x01234567, ctrLo := 0x89ABCDEF } [.wr 0x08 0x41]) =
    some (0x0123456789ABCDEF, true, 0x01234567, 0x89ABCDEF) := by decide
theorem test_deriveV11_clears_done : view statusOf
    (hostOn { Engine.reset with status := ⟨false, true, false, true, 0⟩ } [.wr 0x08 0x11]) = some 0x9 := by decide
theorem test_deriveV20_copies_key : view (fun t => (t.engine.w, t.engine.key))
    (hostOn { Engine.reset with key := keyBytes } [.wr 0x08 0x61]) = some (keyBytes, keyBytes) := by decide
theorem test_deriveV20_busy : view (fun t => (statusOf t, t.engine.latch.ver))
    (hostOn (running (deriveLatches false 0) (.run 2)) [.wr 0x08 0x21]) = some (0x00000015, .v10) := by decide
theorem test_transformV10_len0 : view statusOf (host [.wr 0x08 0x00000002]) = some 0x00000054 := by decide
theorem test_transformV10_latches_len : view (fun t => (t.engine.latch.op, t.engine.latch.len, t.engine.latch.ai))
    (host [.wr 0x08 0x00000102]) = some (.transform, 1, false) := by decide
theorem test_transformV11_latches_din : view (fun t => (t.engine.latch.din, t.engine.latch.ver, t.engine.latch.len))
    (hostOn { Engine.reset with din := keyBytes } [.wr 0x08 0x00002012]) = some (keyBytes, .v11, 32) := by decide
theorem test_transformV20_accept : view (fun t => (statusOf t, t.engine.seq, t.engine.latch.ai))
    (host [.wr 0x08 0x00002062]) = some (0x00000001, .run 0, true) := by decide

/-! ### Status, interrupt and bus vectors (95_test_vectors.md section 7) -/

theorem test_opcode_error : view statusOf (host [.wr 0x08 0x33]) = some 0x00000034 := by decide
theorem test_first_error_sticky : view statusOf (hostOn (failed 3) [.wr 0x08 0x32]) = some 0x00000034 := by decide
theorem test_error_cleared : view statusOf (hostOn (failed 3) [.wr 0x04 0x4]) = some 0 := by decide
theorem test_status_never_set : view statusOf (host [.wr 0x04 0xFFFFFFFF]) = some 0 := by decide
theorem test_interrupt : irq { failed 3 with ie := true } = true ∧ irq (failed 3) = false ∧
    view (fun t => irq t.engine) (hostOn { failed 3 with ie := true } [.wr 0x04 0x4]) = some false := by decide
theorem test_read_misaligned : busRead 0x02 (failed 3) = ⟨true, some 0⟩ := by decide
theorem test_ctrl_reads_enable : view (fun t => busRead 0x00 t.engine) (host [.wr 0x00 0xFFFFFFFF]) =
    some ⟨false, some 1⟩ := by decide

/-! ### The algorithm (95_test_vectors.md sections 2, 3 and 4.1) -/

theorem test_rotations : rotr 0x12345678 23 = 0x68ACF024 ∧ rotl 0x12345678 23 = 0x3C091A2B ∧
    rotr 0x12345678 5 = 0xC091A2B3 ∧ rotl 0x12345678 13 = 0x8ACF0246 := by decide
theorem test_reduction : red 0x2FFFFFFFD .fp = 0xC ∧ red 0x7FFFFFFF8 .fp = 0x20 ∧ red 0x1FFFFFFFE .w32 = 0xFFFFFFFE := by
  decide
theorem test_permute : permute keyBytes (demo.permTable 3) = ⟨0x03080D12, 0x171C0106, 0x0B10151A, 0x1F04090E,
    0x13181D02, 0x070C1116, 0x1B00050A, 0x0F14191E⟩ := by decide
theorem test_round_zero : arxRound demo .v10 0 (startState demo keyBytes 0 0) =
    ⟨⟨0x020345CF, 0x14191E03, 0x180F1217, 0x1C058FE5, 0x10151A1F, 0x7A8C7C13, 0x181D0812, 0x0911161B⟩,
     ⟨0x9213B752, 0x727C8688, 0x22222222, 0x33333333, 0x44444444, 0x55555555, 0x66666666, 0x77777777⟩⟩ := by decide
theorem test_round_one : arxRound demo .v10 1
    ⟨⟨0x020345CF, 0x14191E03, 0x180F1217, 0x1C058FE5, 0x10151A1F, 0x7A8C7C13, 0x181D0812, 0x0911161B⟩,
     ⟨0x9213B752, 0x727C8688, 0x22222222, 0x33333333, 0x44444444, 0x55555555, 0x66666666, 0x77777777⟩⟩ =
    ⟨⟨0x031E177B, 0xFB66A314, 0x0F8F7CA5, 0x4D45031C, 0x12CADD02, 0x1912E50E, 0xAA44CF18, 0x05493430⟩,
     ⟨0x9213B752, 0x41C68135, 0x42DFCBAD, 0x33333333, 0x44444444, 0x55555555, 0x66666666, 0x77777777⟩⟩ := by decide

/-- The default configuration holds values that 40_primitives.md R67 lists. -/
theorem test_versionConfig_legal : ∀ ver ∈ [Version.v10, .v11, .v20], (versionConfig ver).legal = true := by decide

/-- The command words of the 65-byte scenario (95_test_vectors.md section 1.2). -/
theorem test_transformBuffer : (transformBuffer .v20 0 (List.replicate 65 0x41)).filterMap
    (fun l => match l with | .wr 0x08 v => some v | _ => none) = [0x00002062, 0x00002062, 0x00000162] := by decide

/-- An override of VERSION_CONFIG runs: V1.0 with a cadence that skips round 0 leaves the W of the seven steps alone
(95_test_vectors.md section 2.2, before the permutation). -/
def skipFirst (ver : Version) : RoundConfig := { versionConfig ver with permEvery := 4, permPhase := 1 }

theorem test_override_runs :
    (match stepWith skipFirst (seqOn { running (deriveLatches false 0) (.run 0) with w := keyBytes }) with
      | .next t => some (t.engine.w, t.engine.a.w0, t.engine.a.w1)
      | _ => none) =
    some (⟨0x02050803, 0x7A038F12, 0x188C45E5, 0x090F7CCF, 0x10111213, 0x14151617, 0x18191A1B, 0x1C1D1E1F⟩,
      0x9213B752, 0x727C8688) := by decide

/-! ### Completion (43_driver.md R98 to R101) -/

theorem test_completion_transform : view (fun t => (statusOf t, t.engine.dout.w0, t.engine.dout.w1, t.engine.ctrLo))
    (seqOn { running (transformLatches 5) .emit with w := keyBytes }) =
    some (0x2, 0xFFFEFDFC, 0xFB000000, 8) := by decide
theorem test_completion_wrap : view (fun t => (statusOf t, t.engine.ctrHi, t.engine.ctrLo, t.engine.dout))
    (seqOn (running (deriveLatches true 0xFFFFFFFFFFFFFFFF) .emit)) = some (0xA, 0, 0, WordFile.zero) := by decide

/-! ### The hypotheses of the statements are met -/

theorem witness_DecodeOfEncodeIsTheCommand : Instr.nop.wellFormed = true ∧ (Instr.deriveV10 true).wellFormed = true ∧
    (Instr.deriveV11 true).wellFormed = true ∧ (Instr.deriveV20 true).wellFormed = true ∧
    (Instr.transformV10 true 1).wellFormed = true ∧ (Instr.transformV11 true 32).wellFormed = true ∧
    (Instr.transformV20 true 32).wellFormed = true := by decide

/-- A word that decodes to a command and one that is rejected. -/
theorem witness_CommandWriteActsOnTheVerdict :
    (writesCommand (host [.wr 0x08 0x21]) 0x21 ∧ decode 0x21 false = .command (.deriveV20 false)) ∧
    (writesCommand (host [.wr 0x08 0x31]) 0x31 ∧ decode 0x31 false = .reject .version) := by
  unfold writesCommand; decide

theorem witness_StepRunsTheDecodedCommand :
    (Instr.transformV20 true 32).wellFormed = true ∧
    writesCommand (host [.wr 0x08 0x2062]) (encode (.transformV20 true 32)) := by
  unfold writesCommand; decide

/-- The idle and the busy clause, and words with OP = 0 that are not the NOP word. -/
theorem witness_NopChangesNothing : State.reset.engine.status.busy = false ∧
    (hostOn (running (deriveLatches false 0) (.run 0)) []).engine.status.busy = true ∧
    ((0x10 : Word).toNat % 16 = 0 ∧ (0x10 : Word) ≠ 0) ∧ ((0x80000000 : Word).toNat % 16 = 0 ∧ (0x80000000 : Word) ≠ 0) := by
  decide

theorem witness_DeriveAcceptStartsTheSequencer : (host [.wr 0x08 0x1]).engine.status.busy = false := rfl

/-- LEN at both ends of its range. -/
theorem witness_TransformAcceptStartsTheSequencer : State.reset.engine.status.busy = false ∧
    (1 ≤ (1 : BitVec 6).toNat ∧ (1 : BitVec 6).toNat ≤ 32) ∧
    (1 ≤ (32 : BitVec 6).toNat ∧ (32 : BitVec 6).toNat ≤ 32) := by decide

theorem witness_TransformWithIllegalLengthIsRejected : State.reset.engine.status.busy = false ∧
    (0 : BitVec 6).toNat = 0 ∧ 32 < (33 : BitVec 6).toNat ∧ 32 < (63 : BitVec 6).toNat := by decide

theorem witness_CommandWhileBusyIsRejected :
    writesCommand (hostOn (running (deriveLatches false 0) .emit) [.wr 0x08 0]) 0 ∧
    (hostOn (running (deriveLatches false 0) .emit) [.wr 0x08 0]).engine.status.busy = true := by
  unfold writesCommand; decide

/-- Each code, with and without a recorded error. -/
theorem witness_RejectionRecordsOnlyTheFirstError :
    (∀ e ∈ [Engine.reset, failed 3], ∀ p ∈ [((0x4000 : Word), ErrCode.rsvd), (0xF, .opcode), (0x31, .version), (0x2, .length)],
      writesCommand (hostOn e [.wr 0x08 p.1]) p.1 ∧
      decode p.1 (hostOn e [.wr 0x08 p.1]).engine.status.busy = .reject p.2) ∧
    (writesCommand (hostOn (running (deriveLatches false 0) (.run 0)) [.wr 0x08 0]) 0 ∧
      decode 0 (hostOn (running (deriveLatches false 0) (.run 0)) [.wr 0x08 0]).engine.status.busy = .reject .busy) ∧
    Engine.reset.status.err = false ∧ (failed 3).status.err = true := by
  unfold writesCommand; decide

/-- A recorded error that stays, one that the host clears, one that reset clears. -/
theorem witness_RecordedErrorStaysUntilCleared :
    ((failed 3).status.err = true) ∧
    (∃ t, step (hostOn (failed 3) [.wr 0x08 0x32]) = .next t ∧ t.engine.status.err = true) ∧
    (∃ t, step (hostOn (failed 3) [.wr 0x04 0x4]) = .next t ∧ t.engine.status.err = false) ∧
    (∃ t, step { State.reset with engine := failed 3, turns := [.reset] } = .next t ∧ t.engine.status.err = false) :=
  ⟨rfl, ⟨_, rfl, rfl⟩, ⟨_, rfl, rfl⟩, ⟨_, rfl, rfl⟩⟩

/-- The first and the last round. -/
theorem witness_RoundStepRunsOneRound :
    (turnOf (seqOn (running (deriveLatches false 0) (.run 0))) = .sequencer ∧
      (seqOn (running (deriveLatches false 0) (.run 0))).engine.seq = .run 0) ∧
    (turnOf (seqOn (running (deriveLatches false 0) (.run 15))) = .sequencer ∧
      (seqOn (running (deriveLatches false 0) (.run 15))).engine.seq = .run 15) := by decide

/-- The engines above meet the invariant. -/
theorem running_derive_inv (ai : Bool) (ctr : BitVec 64) (q : SeqPos) (h : q ≠ .idle) :
    (running (deriveLatches ai ctr) q).Inv := by
  constructor <;> simp [running, deriveLatches, Status.reset, h]

theorem reset_inv : Engine.reset.Inv := by constructor <;> decide

/-- Each move of the table is made by some step from a state that meets the invariant. -/
theorem witness_SequencerFollowsItsTable :
    (State.Inv (host [.wr 0x08 0x1]) ∧ ∃ t, step (host [.wr 0x08 0x1]) = .next t ∧ t.engine.seq = .run 0) ∧
    (State.Inv (seqOn (running (deriveLatches false 0) (.run 0))) ∧
      ∃ t, step (seqOn (running (deriveLatches false 0) (.run 0))) = .next t ∧ t.engine.seq = .run 1) ∧
    (State.Inv (seqOn (running (deriveLatches false 0) (.run 15))) ∧
      ∃ t, step (seqOn (running (deriveLatches false 0) (.run 15))) = .next t ∧ t.engine.seq = .emit) ∧
    (State.Inv (seqOn (running (deriveLatches false 0) .emit)) ∧
      ∃ t, step (seqOn (running (deriveLatches false 0) .emit)) = .next t ∧ t.engine.seq = .idle) ∧
    (State.Inv { seqOn (running (deriveLatches false 0) (.run 4)) with turns := [.reset] } ∧
      ∃ t, step { seqOn (running (deriveLatches false 0) (.run 4)) with turns := [.reset] } = .next t ∧
        t.engine.seq = .idle) :=
  ⟨⟨reset_inv, _, rfl, rfl⟩, ⟨running_derive_inv _ _ _ (by decide), _, rfl, rfl⟩,
    ⟨running_derive_inv _ _ _ (by decide), _, rfl, rfl⟩, ⟨running_derive_inv _ _ _ (by decide), _, rfl, rfl⟩,
    ⟨running_derive_inv _ _ _ (by decide), _, rfl, rfl⟩⟩

/-- A completion of a TRANSFORM of 1 and of 32 bytes, and of a DERIVE. -/
theorem witness_CompletionEmitsTheBlock :
    (turnOf (seqOn (running (transformLatches 1) .emit)) = .sequencer ∧
      (seqOn (running (transformLatches 1) .emit)).engine.seq = .emit ∧ (transformLatches 1).op = .transform) ∧
    (turnOf (seqOn (running (transformLatches 32) .emit)) = .sequencer ∧
      (seqOn (running (transformLatches 32) .emit)).engine.seq = .emit ∧ (transformLatches 32).op = .transform) ∧
    (turnOf (seqOn (running (deriveLatches false 0) .emit)) = .sequencer ∧
      (seqOn (running (deriveLatches false 0) .emit)).engine.seq = .emit ∧
      (deriveLatches false 0).op ≠ .transform) := by decide

/-- A completion without AUTOINC, with it, and with a wrap. -/
theorem witness_CompletionAdvancesTheCounter :
    (turnOf (seqOn (running (deriveLatches false 7) .emit)) = .sequencer ∧
      (seqOn (running (deriveLatches false 7) .emit)).engine.seq = .emit ∧ (deriveLatches false 7).ai = false) ∧
    (turnOf (seqOn (running (deriveLatches true 0xFFFFFFFFFFFFFFFF) .emit)) = .sequencer ∧
      (seqOn (running (deriveLatches true 0xFFFFFFFFFFFFFFFF) .emit)).engine.seq = .emit ∧
      (deriveLatches true 0xFFFFFFFFFFFFFFFF).ai = true ∧
      (deriveLatches true 0xFFFFFFFFFFFFFFFF).ctr.toNat = 2 ^ 64 - 1) := by decide

theorem witness_CompletionFinishesTheCommand :
    turnOf (seqOn (running (deriveLatches true 0) .emit)) = .sequencer ∧
    (seqOn (running (deriveLatches true 0) .emit)).engine.seq = .emit := by decide

/-- Steps that do change OUT and DOUT: a completion and a reset. -/
theorem witness_OutputsChangeOnlyAtCompletionOrReset :
    (∃ t, step (seqOn { running (transformLatches 5) .emit with w := keyBytes }) = .next t ∧
      t.engine.out ≠ WordFile.zero ∧ t.engine.dout ≠ WordFile.zero) ∧
    (∃ t, step { State.reset with engine := { Engine.reset with out := keyBytes, dout := keyBytes }, turns := [.reset] } =
      .next t ∧ t.engine.out ≠ keyBytes ∧ t.engine.dout ≠ keyBytes) :=
  ⟨⟨_, rfl, by decide, by decide⟩, ⟨_, rfl, by decide, by decide⟩⟩

/-- Steps that do change KEY and DIN, at the first and the last word. -/
theorem witness_KeyAndDinAreWrittenOnlyByTheHost :
    (∃ t, step (host [.wr 0x20 1]) = .next t ∧ t.engine.key ≠ Engine.reset.key) ∧
    (∃ t, step (host [.wr 0x3C 1]) = .next t ∧ t.engine.key ≠ Engine.reset.key) ∧
    (∃ t, step (host [.wr 0x40 1]) = .next t ∧ t.engine.din ≠ Engine.reset.din) ∧
    (∃ t, step (host [.wr 0x5C 1]) = .next t ∧ t.engine.din ≠ Engine.reset.din) :=
  ⟨⟨_, rfl, by decide⟩, ⟨_, rfl, by decide⟩, ⟨_, rfl, by decide⟩, ⟨_, rfl, by decide⟩⟩

theorem witness_RotationsMoveEachBit : (0 < 32 ∧ 1 ≤ (1 : BitVec 5).toNat) ∧ (31 < 32 ∧ 1 ≤ (31 : BitVec 5).toNat) := by
  decide

/-- Zero words and constants, in the first and the last round. -/
theorem witness_ZeroIsFixedByTheArxSteps : (∀ j, wordAt WordFile.zero j = 0) ∧
    wordAt WordFile.zero (select 0).c0 = 0 ∧ wordAt WordFile.zero (select 15).c1 = 0 := by decide

/-- The step-3 value of round 0 from the key bytes is below 2^32 - 5 (95_test_vectors.md section 2.2). -/
theorem witness_V10AndV11AgreeUnlessFeedbackReduces : demo.versionConfig = versionConfig ∧
    (wordAt (startState demo keyBytes 0 0).a (select 0).c1 ^^^ arxSum (versionConfig .v10)
      (arxStep1 (versionConfig .v10) (select 0) (startState demo keyBytes 0 0))).toNat < 2 ^ 32 - 5 :=
  ⟨rfl, by decide⟩

/-- Two builds with the same tables 0, 4, 8 and 12 and another table 1. -/
theorem witness_V20BlockUsesFourTables :
    let b' : Build := { demo with permTable := fun t => if t = 1 then Equiv.refl _ else demoTable t }
    demo.versionConfig = versionConfig ∧ b'.versionConfig = versionConfig ∧ demo.kInit = b'.kInit ∧
    demo.permTable 0 = b'.permTable 0 ∧ demo.permTable 4 = b'.permTable 4 ∧ demo.permTable 8 = b'.permTable 8 ∧
    demo.permTable 12 = b'.permTable 12 ∧ demo.permTable 1 0 ≠ b'.permTable 1 0 :=
  ⟨rfl, rfl, rfl, rfl, rfl, rfl, rfl, by decide⟩

/-- Two builds that differ in K_INIT[0] and K_INIT[1]. -/
theorem witness_FirstTwoInitialConstantsAreNotObservable :
    let b' : Build := { demo with kInit := fun j => if j.val < 2 then 0xFFFFFFFF else demo.kInit j }
    demo.versionConfig = b'.versionConfig ∧ demo.permTable = b'.permTable ∧
    (∀ j : Fin 8, 2 ≤ j.val → demo.kInit j = b'.kInit j) ∧ demo.kInit 0 ≠ b'.kInit 0 :=
  ⟨rfl, rfl, by decide, by decide⟩

theorem witness_ZeroInputsGiveTheZeroBlock : zeroBuild.versionConfig = versionConfig ∧
    (∀ j : Fin 8, 2 ≤ j.val → zeroBuild.kInit j = 0) := ⟨rfl, fun _ _ => rfl⟩

/-- Aligned offsets with and without a register, at the ends of the window. -/
theorem witness_RegisterMapIsTheTable : (0x00 : BitVec 8).toNat % 4 = 0 ∧ regAt 0x00 ≠ none ∧
    (0x9C : BitVec 8).toNat % 4 = 0 ∧ regAt 0x9C ≠ none ∧ (0xA0 : BitVec 8).toNat % 4 = 0 ∧ regAt 0xA0 = none ∧
    (0xFC : BitVec 8).toNat % 4 = 0 ∧ regAt 0xFC = none := by decide

/-- The first address above the window. -/
theorem witness_WindowAddressesAreOneToOne : pBase + 256 < pBase ∨ pBase + 256 ≤ pBase + 256 := .inr le_rfl

theorem witness_MisalignedAccessIsAnErrorResponse :
    (turnOf (host [.rd 0x01]) = .host ∧ (0x01 : BitVec 8).toNat % 4 ≠ 0 ∧ (host [.rd 0x01]).script = .rd 0x01 :: []) ∧
    (turnOf (host [.wr 0xFF 1]) = .host ∧ (0xFF : BitVec 8).toNat % 4 ≠ 0 ∧
      (host [.wr 0xFF 1]).script = .wr 0xFF 1 :: []) ∧ (0x00 : BitVec 8).toNat % 4 = 0 := by decide

theorem witness_ReservedOffsetsReadZeroAndIgnoreWrites : ∀ off ∈ [(0x0C : BitVec 8), 0x18, 0x1C, 0xA0, 0xFC],
    turnOf (host [.rd off]) = .host ∧ (host [.rd off]).script = .rd off :: [] ∧
    turnOf (host [.wr off 1]) = .host ∧ (host [.wr off 1]).script = .wr off 1 :: [] ∧
    (off = 0x0C ∨ off = 0x18 ∨ off = 0x1C ∨ (0xA0 ≤ off.toNat ∧ off.toNat % 4 = 0)) := by decide

theorem witness_ReadOnlyAndWriteOnlyRegisters : ∀ j ∈ [(0 : Fin 8), 7],
    (host [.wr (BitVec.ofNat 8 (0x60 + 4 * j.val)) 1]).script = .wr (BitVec.ofNat 8 (0x60 + 4 * j.val)) 1 :: [] ∧
    (host [.wr (BitVec.ofNat 8 (0x80 + 4 * j.val)) 1]).script = .wr (BitVec.ofNat 8 (0x80 + 4 * j.val)) 1 :: [] ∧
    (host [.rd (BitVec.ofNat 8 (0x20 + 4 * j.val))]).script = .rd (BitVec.ofNat 8 (0x20 + 4 * j.val)) :: [] ∧
    (host [.rd 0x08]).script = .rd 0x08 :: [] ∧ turnOf (host [.rd 0x08]) = .host ∧
    turnOf (host [.wr (BitVec.ofNat 8 (0x60 + 4 * j.val)) 1]) = .host := by decide

theorem witness_ReadsHaveNoSideEffect :
    (turnOf (host [.rdStated 0x04 0]) = .host ∧ (host [.rdStated 0x04 0]).script = .rdStated 0x04 0 :: [] ∧
      readValue 0x04 (host [.rdStated 0x04 0]).engine = 0 ∧ readValue 0x04 (host [.rdStated 0x04 0]).engine ≠ 1) ∧
    (turnOf (host [.poll 0x04 1 0]) = .host ∧ (host [.poll 0x04 1 0]).script = .poll 0x04 1 0 :: [] ∧
      readValue 0x04 (host [.poll 0x04 1 0]).engine &&& 1 = 0 ∧
      readValue 0x04 (host [.poll 0x04 1 0]).engine &&& 3 ≠ 2) ∧
    (turnOf (host [.poll 0x04 1 0]) = .host ∧ (∀ off v, (host [.poll 0x04 1 0]).script.head? ≠ some (.wr off v)) ∧
      ∃ t, step (host [.poll 0x04 1 0]) = .next t) ∧
    (turnOf (host [.rd 0x04]) = .host ∧ (host [.rd 0x04]).script = .rd 0x04 :: []) ∧
    ((host [.rd 0x60, .rd 0x60]).turns = .host :: .host :: [] ∧
      (host [.rd 0x60, .rd 0x60]).script = .rd 0x60 :: .rd 0x60 :: []) :=
  ⟨by decide, by decide, ⟨rfl, by simp [host], _, rfl⟩, by decide, by decide⟩

theorem witness_CtrlKeepsOnlyItsEnableBit : turnOf (host [.wr 0x00 0xFFFFFFFF]) = .host ∧
    (host [.wr 0x00 0xFFFFFFFF]).script = .wr 0x00 0xFFFFFFFF :: [] := by decide

theorem witness_StatusWriteOnlyClears : turnOf (hostOn (failed 3) [.wr 0x04 0x4]) = .host ∧
    (hostOn (failed 3) [.wr 0x04 0x4]).script = .wr 0x04 0x4 :: [] := by decide

theorem witness_PlainWritesStoreAndNothingElse : ∀ off ∈ [(0x10 : BitVec 8), 0x14, 0x20, 0x3C, 0x40, 0x5C],
    turnOf (host [.wr off 9]) = .host ∧ (host [.wr off 9]).script = .wr off 9 :: [] := by decide

theorem witness_InterruptFollowsEnableAndSources :
    (turnOf (hostOn (failed 3) [.wr 0x00 1]) = .host ∧ (hostOn (failed 3) [.wr 0x00 1]).script = .wr 0x00 1 :: []) ∧
    (turnOf (hostOn (failed 3) [.wr 0x04 4]) = .host ∧ (hostOn (failed 3) [.wr 0x04 4]).script = .wr 0x04 4 :: []) ∧
    (hostOn (failed 3) []).engine.status.busy = false ∧ (Instr.transformV11 false 32).wellFormed = true ∧
    Instr.transformV11 false 32 ≠ .nop := by decide

theorem witness_ResetWorksFromAnyState :
    turnOf { seqOn (running (deriveLatches true 1) (.run 9)) with turns := [.reset] } = .reset := rfl

theorem witness_StepKeepsTheInvariant : State.Inv (seqOn (running (deriveLatches true 0) .emit)) ∧
    ∃ t, step (seqOn (running (deriveLatches true 0) .emit)) = .next t :=
  ⟨running_derive_inv _ _ _ (by decide), _, rfl⟩

theorem witness_HostDoesNotDisturbARunningCommand :
    (hostOn (running (deriveLatches true 0) (.run 5)) [.wr 0x20 1]).engine.status.busy = true ∧
    turnOf (hostOn (running (deriveLatches true 0) (.run 5)) [.wr 0x20 1]) = .host := by decide

/-- Both kinds of command, LEN at both ends, and interleavings of 16 sequencer turns with and without the host. -/
theorem witness_AcceptedCommandCompletesWhateverTheHostDoes :
    State.reset.engine.status.busy = false ∧
    (Instr.deriveV11 true = deriveInstr .v11 true ∧ Operation.derive = .derive ∧ (0 : BitVec 6) = 0) ∧
    (∀ len ∈ [(1 : BitVec 6), 32], Instr.transformV20 true len = transformInstr .v20 true len ∧
      Operation.transform = .transform ∧ 1 ≤ len.toNat ∧ len.toNat ≤ 32) ∧
    (∀ ts ∈ [List.replicate 16 Turn.sequencer, .host :: List.replicate 16 Turn.sequencer ++ [.host, .host]],
      Turn.reset ∉ ts ∧ sequencerTurns ts = 16) := by decide

/-- Whatever data the first TRANSFORM gives, a second machine with it in DIN meets the hypotheses. -/
theorem witness_TransformTwiceGivesTheDataBack (d : WordFile) :
    let s : State := { State.reset with engine := { Engine.reset with key := keyBytes, din := keyBytes } }
    let s' : State := { s with engine := { s.engine with din := d } }
    s.engine.status.busy = false ∧ s'.engine.status.busy = false ∧ s'.engine.key = s.engine.key ∧
    ctrOf s'.engine = ctrOf s.engine ∧ s'.engine.din = d ∧
    (1 ≤ (1 : BitVec 6).toNat ∧ (1 : BitVec 6).toNat ≤ 32) ∧ (1 ≤ (32 : BitVec 6).toNat ∧ (32 : BitVec 6).toNat ≤ 32) :=
  ⟨rfl, rfl, rfl, rfl, rfl, by decide, by decide⟩

/-- Machines with different keys, W and A, on the host's turn and at a completion. -/
theorem witness_SecretsReachTheHostOnlyAtCompletion :
    (HostAlike (host [.rd 0x60]) (hostOn { Engine.reset with key := keyBytes, w := keyBytes } [.rd 0x60]) ∧
      ¬ (turnOf (host [.rd 0x60]) = .sequencer ∧ (host [.rd 0x60]).engine.seq = .emit)) ∧
    HostAlike (seqOn (running (deriveLatches true 0) .emit))
      (seqOn { running (deriveLatches false 9) .emit with key := keyBytes, w := keyBytes, a := keyBytes }) :=
  ⟨⟨by constructor <;> decide, by decide⟩, by constructor <;> decide⟩

/-- The same completion with the host's write before it and after it. -/
theorem witness_ClearingDoneRacesCompletion : ∀ ts ∈ [[Turn.host, .sequencer], [.sequencer, .host]],
    let s : State := { hostOn (running (deriveLatches false 0) .emit) [.wr 0x04 2] with turns := ts }
    s.engine.seq = .emit ∧ s.script = .wr 0x04 2 :: [] ∧
    (s.turns = .host :: .sequencer :: [] ∨ s.turns = .sequencer :: .host :: []) := by decide

theorem witness_WaitdoneAfterARejectionNeverEnds :
    (hostOn (failed 5) (waitdone ++ getout)).engine.seq = .idle ∧
    (hostOn (failed 5) (waitdone ++ getout)).engine.status.done = false ∧
    (hostOn (failed 5) (waitdone ++ getout)).script = waitdone ++ getout := by decide

/-- A host that reads, clears STATUS and loads a key, and writes neither CMD nor CTR. -/
theorem witness_OutputsStayUntilTheNextCommand :
    let s := host (getout ++ clrst ++ setkey keyBytes)
    s.Inv ∧ s.engine.status.busy = false ∧ Turn.reset ∉ s.turns ∧ (∀ v, HostLine.wr 0x08 v ∉ s.script) ∧
    (∀ v, HostLine.wr 0x10 v ∉ s.script ∧ HostLine.wr 0x14 v ∉ s.script) := by
  refine ⟨reset_inv, rfl, by decide, fun v h => ?_, fun v => ⟨fun h => ?_, fun h => ?_⟩⟩ <;>
    simp [host, getout, clrst, setkey, fileLines, offsetOf] at h

/-- The steps of a run, as a function. -/
def runFor (vc : Version → RoundConfig) : Nat → State → State
  | 0, s => s
  | n + 1, s =>
    match stepWith vc s with
    | .next t => runFor vc n t
    | .fault _ => s
    | .refused _ => s

theorem reaches_runFor (vc : Version → RoundConfig) (n : Nat) (s : State) : Reaches vc n s (runFor vc n s) := by
  induction n generalizing s with
  | zero => rfl
  | succ n ih =>
    have h : ∃ t, stepWith vc s = .next t := by
      rcases step_cases vc s with ⟨-, e⟩ | ⟨-, e⟩ | ⟨-, -, e⟩ | ⟨-, _, _, _, -, e⟩ | ⟨-, _, _, -, -, e⟩ |
        ⟨-, _, _, -, -, e⟩ | ⟨-, v, i, -, -, e⟩
      all_goals first | exact ⟨_, e⟩ | (rw [e]; cases i <;> exact ⟨_, rfl⟩)
    obtain ⟨t, h⟩ := h
    exact ⟨t, h, by simp only [runFor, h]; exact ih t⟩

/-- An idle machine at the start of a keystream script; in this interleaving the script ends. -/
theorem witness_KeystreamScriptReturnsTheBlock :
    let s : State := { State.reset with
      script := keystream .v20 5
      turns := List.replicate 3 .host ++ List.replicate 17 .sequencer ++ List.replicate 9 .host }
    s.Inv ∧ s.engine.status.busy = false ∧ s.script = keystream .v20 5 ∧ Turn.reset ∉ s.turns ∧
    ∃ u, Reaches versionConfig 29 s u ∧ u.script = [] :=
  ⟨reset_inv, rfl, rfl, by decide, _, reaches_runFor versionConfig 29 _, by rfl⟩

/-- Two configurations that differ, at a turn that is no round and in a round of a version on which they agree. -/
theorem witness_VersionConfigIsAParameterWithADefault :
    let vc : Version → RoundConfig := fun v => if v = .v20 then skipFirst .v20 else versionConfig v
    vc .v20 ≠ versionConfig .v20 ∧ turnOf (host [.rd 0x04]) ≠ .sequencer ∧
    (seqOn (running (transformLatches 1) .emit)).engine.seq = .emit ∧
    (turnOf (seqOn (running (deriveLatches false 0) (.run 0))) = .sequencer ∧
      vc (seqOn (running (deriveLatches false 0) (.run 0))).engine.latch.ver =
        versionConfig (seqOn (running (deriveLatches false 0) (.run 0))).engine.latch.ver) := by decide

/-- A host turn that issues no command. -/
theorem witness_SequencerFollowsItsTable_stays : State.Inv (host [.rd 0x04]) ∧ turnOf (host [.rd 0x04]) = .host ∧
    (¬ ∃ v i, writesCommand (host [.rd 0x04]) v ∧
      decode v (host [.rd 0x04]).engine.status.busy = .command i ∧ i ≠ .nop) ∧
    ∃ t, step (host [.rd 0x04]) = .next t ∧ t.engine.seq = .idle :=
  ⟨reset_inv, rfl, by simp [writesCommand, host], _, rfl, rfl⟩

/-- A buffer of 33 bytes has two segments. -/
theorem witness_SegmentsCoverTheBuffer : (segments 33 (List.replicate 33 (0 : Byte))).map List.length = [32, 1] := by decide

end Sys2Proof.Tests
end

/-! PROOF. How far a step depends on VERSION_CONFIG: only a round step reads it, and only at the latched version
(40_primitives.md R69). -/

namespace Sys2Proof.Machine

/-- A round step reads of VERSION_CONFIG only the record of the latched version (40_primitives.md R69). -/
theorem roundStep_congr {vc vc' : Version → RoundConfig} {e : Engine} (i : Fin 16)
    (h : vc e.latch.ver = vc' e.latch.ver) : roundStep vc i e = roundStep vc' i e := by
  have hround : arxRound (buildWith vc) e.latch.ver i ⟨e.w, e.a⟩ =
      arxRound (buildWith vc') e.latch.ver i ⟨e.w, e.a⟩ := round_congr _ h fun _ => rfl
  simp only [roundStep, hround]

/-- The sequencer's turn reads VERSION_CONFIG in RUN(i) only (10_state.md R16). -/
theorem sequencerTurn_congr {vc vc' : Version → RoundConfig} {s : State}
    (h : ∀ i, s.engine.seq = .run i → vc s.engine.latch.ver = vc' s.engine.latch.ver) :
    sequencerTurn vc s = sequencerTurn vc' s := by
  unfold sequencerTurn
  cases hseq : s.engine.seq with
  | idle => rfl
  | run i => simp only [roundStep_congr i (h i hseq)]
  | emit => rfl

/-- A host's turn is the same step under every VERSION_CONFIG (10_state.md R21). -/
theorem step_of_host_congr (vc vc' : Version → RoundConfig) {s : State} (h : turnOf s = .host) :
    stepWith vc s = stepWith vc' s := by
  obtain ⟨ts, hts⟩ := turns_of_host h
  have hnext : nextTurn vc s = nextTurn vc' s := by simp only [nextTurn, takeTurn, hts]
  simp only [stepWith, hnext]

/-- A step depends on VERSION_CONFIG only in the sequencer's turn in RUN(i), and there only at the latched version
(40_primitives.md R69). -/
theorem stepWith_congr {vc vc' : Version → RoundConfig} {s : State}
    (h : turnOf s = .sequencer → ∀ i, s.engine.seq = .run i → vc s.engine.latch.ver = vc' s.engine.latch.ver) :
    stepWith vc s = stepWith vc' s := by
  cases hturn : turnOf s with
  | host => exact step_of_host_congr vc vc' hturn
  | sequencer =>
    have hseq := sequencerTurn_congr (s := { s with turns := s.turns.tail }) (h hturn)
    rw [step_of_sequencer hturn, step_of_sequencer hturn, hseq]
  | reset => rw [step_of_reset hturn, step_of_reset hturn]

/-- Settles O48: the defaults are the table of 40_primitives.md R68, and the dependence is `stepWith_congr`, where
RUN(i) is the position that is neither IDLE nor EMIT. -/
theorem versionConfigIsAParameterWithADefault : Obligations.VersionConfigIsAParameterWithADefault := by
  refine ⟨⟨rfl, rfl, rfl⟩, step_eq, fun vc vc' s h => stepWith_congr fun hturn i hrun => ?_⟩
  exact h hturn (by simp [hrun]) (by simp [hrun])

end Sys2Proof.Machine

/-! PROOF. The engine's invariant: each operation on the engine keeps it, so every step does (10_state.md R10, R16, R17;
60_exceptions.md R111). -/

namespace Sys2Proof.Machine

/-! ### The error code -/

/-- The part of the invariant about ERR and ERRCODE: the code is 0 exactly when no error is recorded, and a code of
60_exceptions.md R111 otherwise. -/
def Status.ErrCodeOk (t : Status) : Prop := (t.errCode = 0 ↔ t.err = false) ∧ t.errCode.toNat ≤ 5

theorem Engine.Inv.errCodeOk {e : Engine} (h : e.Inv) : e.status.ErrCodeOk := ⟨h.errCode_zero_iff, h.errCode_le⟩

/-- Every recorded code is 1 to 5 (60_exceptions.md R111). -/
theorem errCodeBits_range (c : ErrCode) : errCodeBits c ≠ 0 ∧ (errCodeBits c).toNat ≤ 5 := by
  cases c <;> decide

/-- Clearing ERR clears ERRCODE with it, and nothing else touches either (10_state.md R10). -/
theorem statusClear_errCodeOk (v : Word) {t : Status} (h : t.ErrCodeOk) : (statusClear v t).ErrCodeOk := by
  unfold Status.ErrCodeOk
  rw [statusClear_errCode, statusClear_err]
  cases v.getLsbD 2 with
  | true => simp
  | false => simpa [Status.ErrCodeOk] using h

/-- A rejection records a code other than 0, or leaves the recorded one (60_exceptions.md R112, R113). -/
theorem statusReject_errCodeOk (c : ErrCode) {t : Status} (h : t.ErrCodeOk) : (statusReject c t).ErrCodeOk := by
  obtain ⟨hne, hle⟩ := errCodeBits_range c
  unfold statusReject
  split
  · exact h
  · exact ⟨by simpa using hne, hle⟩

/-! ### The engine's operations -/

/-- An operation that keeps BUSY, the latches and whether seq is IDLE, does not set DONE and leaves a good error code
keeps the invariant. -/
theorem Engine.Inv.of_frame {e e' : Engine} (h : e.Inv) (hbusy : e'.status.busy = e.status.busy)
    (hseq : e'.seq = .idle ↔ e.seq = .idle) (hlatch : e'.latch = e.latch)
    (hdone : e'.status.done = true → e.status.done = true) (hcode : e'.status.ErrCodeOk) : e'.Inv where
  busy_iff := by rw [hbusy, h.busy_iff, ne_eq, ne_eq, hseq]
  errCode_zero_iff := hcode.1
  errCode_le := hcode.2
  done_idle hd := hbusy.trans (h.done_idle (hdone hd))
  op_named := by rw [hbusy, hlatch]; exact h.op_named
  derive_len := by rw [hbusy, hlatch]; exact h.derive_len
  transform_len := by rw [hbusy, hlatch]; exact h.transform_len

/-- An idle engine with a good error code meets the invariant, whatever DONE and the latches hold. -/
theorem Engine.Inv.of_idle {e : Engine} (hbusy : e.status.busy = false) (hseq : e.seq = .idle)
    (hcode : e.status.ErrCodeOk) : e.Inv where
  busy_iff := by simp [hbusy, hseq]
  errCode_zero_iff := hcode.1
  errCode_le := hcode.2
  done_idle _ := hbusy
  op_named hb := by simp [hbusy] at hb
  derive_len hb := by simp [hbusy] at hb
  transform_len hb := by simp [hbusy] at hb

theorem engine_reset_inv : Engine.reset.Inv := .of_idle rfl rfl ⟨by decide, by decide⟩

theorem busWrite_inv (off : BitVec 8) (v : Word) {e : Engine} (h : e.Inv) : (busWrite off v e).Inv := by
  obtain ⟨-, -, -, -, hseq, hlatch, hkept | hclear⟩ := busWrite_frame off v e
  · exact h.of_frame (by rw [hkept]) (by rw [hseq]) hlatch (by simp [hkept]) (hkept ▸ h.errCodeOk)
  · exact h.of_frame (by simp [hclear]) (by rw [hseq]) hlatch (by simp +contextual [hclear])
      (hclear ▸ statusClear_errCodeOk v h.errCodeOk)

theorem reject_inv (c : ErrCode) {e : Engine} (h : e.Inv) : (reject c e).Inv :=
  h.of_frame (by simp) (by simp) rfl (by simp) (statusReject_errCodeOk c h.errCodeOk)

theorem seqAfter_ne_idle (i : Fin 16) : seqAfter i ≠ .idle := by
  unfold seqAfter; split <;> simp

theorem roundStep_inv (vc : Version → RoundConfig) {i : Fin 16} {e : Engine} (hrun : e.seq = .run i) (h : e.Inv) :
    (roundStep vc i e).Inv :=
  h.of_frame rfl (by simp [hrun, seqAfter_ne_idle]) rfl id h.errCodeOk

theorem complete_inv (n : Nat) {e : Engine} (h : e.Inv) : (complete n e).Inv := .of_idle rfl rfl h.errCodeOk

/-- An accept starts the sequencer with the latches of a legal command (43_driver.md R93). -/
theorem accept_inv {op : Operation} {ver : Version} {ai : Bool} {len : BitVec 6} {e : Engine}
    (hlen : op = .derive ∧ len = 0 ∨ op = .transform ∧ lenLegal len = true) (h : e.Inv) :
    (accept op ver ai len e).Inv where
  busy_iff := by simp
  errCode_zero_iff := h.errCode_zero_iff
  errCode_le := h.errCode_le
  done_idle hd := by simp at hd
  op_named _ := by rcases hlen with ⟨rfl, -⟩ | ⟨rfl, -⟩ <;> simp
  derive_len _ hop := by
    rcases hlen with ⟨-, hzero⟩ | ⟨rfl, -⟩
    · exact hzero
    · simp at hop
  transform_len _ hop := by
    rcases hlen with ⟨rfl, -⟩ | ⟨-, hlegal⟩
    · simp at hop
    · exact hlegal

/-- Every step keeps the invariant, under every VERSION_CONFIG. -/
theorem stepWith_inv {vc : Version → RoundConfig} {s t : State} (h : s.Inv) (hstep : stepWith vc s = .next t) :
    t.Inv := by
  unfold State.Inv at h ⊢
  rcases step_engine_cases hstep with ⟨-, he⟩ | ⟨-, ⟨-, he⟩ | ⟨i, hrun, he⟩ | ⟨-, he⟩⟩ | ⟨-, he⟩ |
    ⟨-, off, v, -, -, he⟩ | ⟨-, c, he⟩ | ⟨-, -, _, _, -, -, -, op, ver, ai, len, hlen, he⟩ <;> rw [he]
  · exact engine_reset_inv
  · exact h
  · exact roundStep_inv vc hrun h
  · exact complete_inv _ h
  · exact h
  · exact busWrite_inv off v h
  · exact reject_inv c h
  · exact accept_inv hlen h

/-- Settles O50: every step is one of the engine's operations, and each keeps the invariant. -/
theorem stepKeepsTheInvariant : Obligations.StepKeepsTheInvariant := fun _ _ => stepWith_inv

/-- Settles O51: the reset engine is idle with no error recorded. -/
theorem resetStateMeetsTheInvariant : Obligations.ResetStateMeetsTheInvariant := engine_reset_inv

end Sys2Proof.Machine

/-! PROOF. Key, W, A and the latches stay inside the engine until a completion (10_state.md R23, 60_exceptions.md R122).
Erasing them is a canonical form: machines are alike when their erasures are equal, and a step of a machine and of its
erasure stay alike. -/

namespace Sys2Proof.Machine

/-! ### The erasure of the secrets -/

/-- The engine with KEY, W, A and the latches at their reset values. -/
def Engine.visible (e : Engine) : Engine :=
  { e with key := WordFile.zero, w := WordFile.zero, a := WordFile.zero, latch := Latches.reset }

/-- The machine with its engine's secrets erased. -/
def State.visible (s : State) : State := { s with engine := s.engine.visible }

@[simp] theorem Engine.visible_status (e : Engine) : e.visible.status = e.status := rfl
@[simp] theorem Engine.visible_seq (e : Engine) : e.visible.seq = e.seq := rfl
@[simp] theorem State.visible_engine (s : State) : s.visible.engine = s.engine.visible := rfl
@[simp] theorem State.visible_script (s : State) : s.visible.script = s.script := rfl
@[simp] theorem State.visible_turns (s : State) : s.visible.turns = s.turns := rfl
@[simp] theorem turnOf_visible (s : State) : turnOf s.visible = turnOf s := rfl

/-- Alike is: equal once the secrets are erased. -/
theorem hostAlike_iff {s t : State} : HostAlike s t ↔ s.visible = t.visible := by
  constructor
  · rintro ⟨_, _, _, _, _, _, _, _, _, _, _, _, _⟩
    simp_all [State.visible, Engine.visible]
  · intro h
    simp only [State.visible, Engine.visible, State.mk.injEq, Engine.mk.injEq] at h
    obtain ⟨⟨_, _, _, _, _, _, _, _, _, _, _, _⟩, _, _, _, _, _⟩ := h
    constructor <;> assumption

theorem HostAlike.symm {s t : State} (h : HostAlike s t) : HostAlike t s := hostAlike_iff.mpr (hostAlike_iff.mp h).symm

theorem HostAlike.trans {s t u : State} (h : HostAlike s t) (h' : HostAlike t u) : HostAlike s u :=
  hostAlike_iff.mpr ((hostAlike_iff.mp h).trans (hostAlike_iff.mp h'))

/-! ### The accesses of the host -/

/-- No read returns a secret: CMD and KEY read 0 (20_memory.md R31). -/
@[simp] theorem busRead_visible (off : BitVec 8) (e : Engine) : busRead off e.visible = busRead off e := by
  unfold busRead
  cases regAt off with
  | none => rfl
  | some r => cases r <;> rfl

@[simp] theorem readValue_visible (off : BitVec 8) (e : Engine) : readValue off e.visible = readValue off e := by
  simp [readValue]

/-- What a bus write shows outside the secrets does not depend on them: it stores its value or clears STATUS. -/
theorem busWrite_visible (off : BitVec 8) (v : Word) (e : Engine) :
    (busWrite off v e.visible).visible = (busWrite off v e).visible := by
  unfold busWrite
  split
  · rfl
  · cases regAt off with
    | none => rfl
    | some r => cases r <;> rfl

/-- A choice made on what the erasure keeps leaves the machines alike when both its branches do. -/
theorem HostAlike.ite {p q : Prop} [Decidable p] [Decidable q] {s s' t t' : State} (h : p ↔ q)
    (hpos : HostAlike s t) (hneg : HostAlike s' t') : HostAlike (if p then s else s') (if q then t else t') := by
  simp only [h]
  split <;> assumption

theorem issue_hostAlike (op : Operation) (ver : Version) (ai : Bool) (len : BitVec 6) (s : State) :
    HostAlike (issue op ver ai len s) (issue op ver ai len s.visible) :=
  .ite Iff.rfl (hostAlike_iff.mpr rfl) (hostAlike_iff.mpr rfl)

theorem issueTransform_hostAlike (ver : Version) (ai : Bool) (len : BitVec 6) (s : State) :
    HostAlike (issueTransform ver ai len s) (issueTransform ver ai len s.visible) :=
  .ite Iff.rfl (hostAlike_iff.mpr rfl) (issue_hostAlike _ _ _ _ s)

/-- An accept copies KEY into W and latches CTR and DIN; all of it is erased, and BUSY alone decides whether there is
one (43_driver.md R92, R93). -/
theorem exec_hostAlike (i : Instr) (s : State) :
    ∃ t u, exec i s = .next t ∧ exec i s.visible = .next u ∧ HostAlike t u := by
  cases i with
  | nop => exact ⟨_, _, rfl, rfl, .ite Iff.rfl (hostAlike_iff.mpr rfl) (hostAlike_iff.mpr rfl)⟩
  | deriveV10 ai | deriveV11 ai | deriveV20 ai => exact ⟨_, _, rfl, rfl, issue_hostAlike _ _ _ _ s⟩
  | transformV10 ai len | transformV11 ai len | transformV20 ai len =>
    exact ⟨_, _, rfl, rfl, issueTransform_hostAlike _ _ _ s⟩

/-! ### The three agents' turns -/

/-- What the host's turn leaves when it issues no command is what the step leaves. -/
theorem step_of_hostTurn_moved {vc : Version → RoundConfig} {s t : State} (h : turnOf s = .host)
    (ht : hostTurn { s with turns := s.turns.tail } = .moved t) : stepWith vc s = .next t := by
  obtain ⟨ts, hts⟩ := turns_of_host h
  have ht' : hostTurn { s with turns := ts } = .moved t := by simpa only [hts, List.tail_cons] using ht
  have hnext : nextTurn vc s = .moved t := by simp only [nextTurn, hts, takeTurn, ht']
  simp only [stepWith, hnext]

/-- A host turn that writes nothing moves the erased machine to the erased next state: reads and polls return no
secret. -/
theorem hostTurn_visible {s : State} (hread : ∀ off v, s.script.head? ≠ some (.wr off v)) :
    ∃ t, hostTurn s = .moved t ∧ hostTurn s.visible = .moved t.visible := by
  obtain ⟨e, turns, script, heard, holds, n⟩ := s
  cases script with
  | nil => exact ⟨_, rfl, rfl⟩
  | cons line rest =>
    cases line with
    | wr off v => exact absurd rfl (hread off v)
    | rd off | rdStated off v | poll off mask v =>
      exact ⟨_, rfl, by simp [hostTurn, hostRead, hear, State.visible]⟩

/-- A write stores or is judged by BUSY and the word alone, so it moves the erased machine to a like state. -/
theorem step_of_write_hostAlike {vc : Version → RoundConfig} {s : State} {off : BitVec 8} {v : Word}
    {rest : List HostLine} (h : turnOf s = .host) (hs : s.script = .wr off v :: rest) :
    ∃ t u, stepWith vc s = .next t ∧ stepWith vc s.visible = .next u ∧ HostAlike t u := by
  have hvis := step_of_write (vc := vc) (s := s.visible) h hs
  rw [step_of_write h hs, hvis]
  by_cases ho : off = offsetOf .cmd
  · simp only [if_pos ho, State.visible_engine, Engine.visible_status]
    cases decode v s.engine.status.busy with
    | reject c => exact ⟨_, _, rfl, rfl, hostAlike_iff.mpr rfl⟩
    | command i => exact exec_hostAlike i (afterAccess s (writeResponse off))
  · simp only [if_neg ho]
    refine ⟨_, _, rfl, rfl, hostAlike_iff.mpr ?_⟩
    simp [State.visible, busWrite_visible, afterAccess]

theorem step_of_host_hostAlike {vc : Version → RoundConfig} {s : State} (h : turnOf s = .host) :
    ∃ t u, stepWith vc s = .next t ∧ stepWith vc s.visible = .next u ∧ HostAlike t u := by
  by_cases hwrite : ∃ off v, s.script.head? = some (.wr off v)
  · obtain ⟨off, v, hv⟩ := hwrite
    obtain ⟨rest, hs⟩ := List.head?_eq_some_iff.mp hv
    exact step_of_write_hostAlike h hs
  · push Not at hwrite
    obtain ⟨t, ht, hu⟩ := hostTurn_visible (s := { s with turns := s.turns.tail }) hwrite
    exact ⟨t, t.visible, step_of_hostTurn_moved h ht, step_of_hostTurn_moved h hu, hostAlike_iff.mpr rfl⟩

/-- Short of a completion the sequencer changes W, A and its own position only. -/
theorem sequencerTurn_hostAlike (vc : Version → RoundConfig) {s : State} (h : s.engine.seq ≠ .emit) :
    HostAlike (sequencerTurn vc s) (sequencerTurn vc s.visible) := by
  rw [hostAlike_iff]
  unfold sequencerTurn
  simp only [State.visible_engine, Engine.visible_seq]
  cases hseq : s.engine.seq with
  | idle | run i => rfl
  | emit => exact absurd hseq h

/-- Short of a completion, a machine and its erasure step alike. -/
theorem stepWith_hostAlike_visible (vc : Version → RoundConfig) {s : State}
    (h : ¬ (turnOf s = .sequencer ∧ s.engine.seq = .emit)) :
    ∃ t u, stepWith vc s = .next t ∧ stepWith vc s.visible = .next u ∧ HostAlike t u := by
  cases hturn : turnOf s with
  | host => exact step_of_host_hostAlike hturn
  | sequencer =>
    exact ⟨_, _, step_of_sequencer hturn, step_of_sequencer (s := s.visible) hturn,
      sequencerTurn_hostAlike vc fun hemit => h ⟨hturn, hemit⟩⟩
  | reset => exact ⟨_, _, step_of_reset hturn, step_of_reset (s := s.visible) hturn, hostAlike_iff.mpr rfl⟩

/-- Short of a completion, two machines alike to the host step alike. -/
theorem stepWith_hostAlike (vc : Version → RoundConfig) {s s' : State} (h : HostAlike s s')
    (hturn : ¬ (turnOf s = .sequencer ∧ s.engine.seq = .emit)) :
    ∃ t t', stepWith vc s = .next t ∧ stepWith vc s' = .next t' ∧ HostAlike t t' := by
  have hturn' : ¬ (turnOf s' = .sequencer ∧ s'.engine.seq = .emit) := by
    rwa [turnOf, ← h.turns, ← h.seq]
  obtain ⟨t, u, ht, hu, halike⟩ := stepWith_hostAlike_visible vc hturn
  obtain ⟨t', u', ht', hu', halike'⟩ := stepWith_hostAlike_visible vc hturn'
  rw [hostAlike_iff.mp h] at hu
  cases hu.symm.trans hu'
  exact ⟨t, t', ht, ht', halike.trans halike'.symm⟩

/-- A completion leaves seq IDLE, BUSY 0 and DONE 1, whatever the secrets are (43_driver.md R101). -/
theorem step_of_completion (vc : Version → RoundConfig) {s : State} (hturn : turnOf s = .sequencer)
    (hseq : s.engine.seq = .emit) :
    ∃ t, stepWith vc s = .next t ∧ t.engine = complete s.freeNext s.engine := by
  refine ⟨_, step_of_sequencer hturn, ?_⟩
  simp [sequencerTurn, hseq]

/-- Settles O55: the step is a completion, which fixes seq, BUSY and DONE, or it keeps the machines alike. -/
theorem secretsReachTheHostOnlyAtCompletion : Obligations.SecretsReachTheHostOnlyAtCompletion := by
  intro s s' h
  by_cases hcomplete : turnOf s = .sequencer ∧ s.engine.seq = .emit
  · obtain ⟨hturn, hseq⟩ := hcomplete
    have hturn' : turnOf s' = .sequencer := by rwa [turnOf, ← h.turns]
    obtain ⟨t, ht, he⟩ := step_of_completion versionConfig hturn hseq
    obtain ⟨t', ht', he'⟩ := step_of_completion versionConfig hturn' (h.seq ▸ hseq)
    exact ⟨t, t', ht, ht', absurd ⟨hturn, hseq⟩, by simp [he, he'], by simp [he, he'], by simp [he, he']⟩
  · obtain ⟨t, t', ht, ht', halike⟩ := stepWith_hostAlike versionConfig h hcomplete
    exact ⟨t, t', ht, ht', fun _ => halike, halike.seq, by rw [halike.status], by rw [halike.status]⟩

end Sys2Proof.Machine

/-! PROOF. The register window at the offset of a register: what a read returns and what a write does there
(20_memory.md R27, R31, R33; 10_state.md R9, R10). -/

namespace Sys2Proof.Machine

/-! ### The register map (20_memory.md R27) -/

@[simp] theorem regAt_offsetOf (r : Reg) : regAt (offsetOf r) = some r := by
  cases r with
  | ctrl | status | cmd | ctrHi | ctrLo => rfl
  | key j | din j | out j | dout j => fin_cases j <;> rfl

@[simp] theorem misaligned_offsetOf (r : Reg) : misaligned (offsetOf r) = false := by
  cases r with
  | ctrl | status | cmd | ctrHi | ctrLo => rfl
  | key j | din j | out j | dout j => fin_cases j <;> rfl

/-- An aligned offset where a register stands is that register's own offset. -/
theorem offsetOf_of_regAt : ∀ off : BitVec 8, misaligned off = false → ∀ r ∈ regAt off, offsetOf r = off := by
  decide

/-! ### Accesses at a register's offset -/

@[simp] theorem busRead_offsetOf (r : Reg) (e : Engine) : busRead (offsetOf r) e = ⟨false, some (readReg e r)⟩ := by
  simp [busRead]

@[simp] theorem readValue_offsetOf (r : Reg) (e : Engine) : readValue (offsetOf r) e = readReg e r := by
  simp [readValue]

@[simp] theorem busWrite_offsetOf (r : Reg) (v : Word) (e : Engine) : busWrite (offsetOf r) v e = writeReg e v r := by
  simp [busWrite]

@[simp] theorem writeResponse_offsetOf (r : Reg) : writeResponse (offsetOf r) = ⟨false, none⟩ := by
  simp [writeResponse]

/-- The step of a host write to a register other than CMD: the whole next state (20_memory.md R33). -/
theorem step_of_write_reg {vc : Version → RoundConfig} {s : State} {r : Reg} {v : Word} {rest : List HostLine}
    (hr : r ≠ .cmd) (h : turnOf s = .host) (hs : s.script = .wr (offsetOf r) v :: rest) :
    stepWith vc s = .next { afterAccess s ⟨false, none⟩ with engine := writeReg s.engine v r } := by
  have hne : offsetOf r ≠ offsetOf .cmd := fun heq => hr (by simpa using congrArg regAt heq)
  rw [step_of_write h hs, if_neg hne, busWrite_offsetOf, writeResponse_offsetOf]

/-- A bus write does nothing, or it is a write to the register at its offset. -/
theorem busWrite_cases (off : BitVec 8) (v : Word) (e : Engine) :
    busWrite off v e = e ∨ ∃ r, off = offsetOf r ∧ busWrite off v e = writeReg e v r := by
  unfold busWrite
  cases hm : misaligned off with
  | true => exact .inl rfl
  | false =>
    cases hr : regAt off with
    | none => exact .inl rfl
    | some r => exact .inr ⟨r, (offsetOf_of_regAt off hm r hr).symm, rfl⟩

/-- A write that is not a command changes KEY only at the offset of one of its words, and that word alone
(10_state.md R13). -/
theorem busWrite_key (off : BitVec 8) (v : Word) (e : Engine) :
    (busWrite off v e).key = e.key ∨ ∃ j, off = offsetOf (.key j) ∧ (busWrite off v e).key = putWord e.key j v := by
  obtain h | ⟨r, hoff, h⟩ := busWrite_cases off v e <;> rw [h]
  · exact .inl rfl
  · cases r with
    | key j => exact .inr ⟨j, hoff, rfl⟩
    | _ => exact .inl rfl

/-- A write that is not a command changes DIN only at the offset of one of its words, and that word alone
(10_state.md R18). -/
theorem busWrite_din (off : BitVec 8) (v : Word) (e : Engine) :
    (busWrite off v e).din = e.din ∨ ∃ j, off = offsetOf (.din j) ∧ (busWrite off v e).din = putWord e.din j v := by
  obtain h | ⟨r, hoff, h⟩ := busWrite_cases off v e <;> rw [h]
  · exact .inl rfl
  · cases r with
    | din j => exact .inr ⟨j, hoff, rfl⟩
    | _ => exact .inl rfl

/-! ### STATUS and CTRL as words (10_state.md R9, R10) -/

/-- A concatenation as a number: the high part counts 2 to the width of the low part. -/
theorem append_toNat {m n : Nat} (x : BitVec m) (y : BitVec n) : (x ++ y).toNat = x.toNat * 2 ^ n + y.toNat := by
  rw [BitVec.toNat_append, ← Nat.shiftLeft_add_eq_or_of_lt y.isLt, Nat.shiftLeft_eq]

theorem statusWord_toNat (t : Status) : (statusWord t).toNat =
    t.busy.toNat + 2 * t.done.toNat + 4 * t.err.toNat + 8 * t.cwrap.toNat + 16 * t.errCode.toNat := by
  simp only [statusWord, BitVec.toNat_cast, append_toNat, BitVec.toNat_ofBool, BitVec.toNat_ofNat]
  omega

theorem ctrlWord_toNat (ie : Bool) : (ctrlWord ie).toNat = ie.toNat := by
  simp only [ctrlWord, BitVec.toNat_cast, append_toNat, BitVec.toNat_ofBool, BitVec.toNat_ofNat]
  omega

/-- A written CTRL reads as bit 0 of the value (10_state.md R9). -/
theorem ctrlWord_getLsbD_zero (v : Word) : ctrlWord (v.getLsbD 0) = v &&& 1 := by
  apply BitVec.eq_of_toNat_eq
  rw [ctrlWord_toNat, BitVec.getLsbD, Nat.toNat_testBit, BitVec.toNat_and]
  simp [Nat.and_one_is_mod]

/-! ### The obligations -/

/-- Settles O42: each listed offset is a register's, and a read there answers that register. -/
theorem readsReturnTheRegisters : Obligations.ReadsReturnTheRegisters := fun e =>
  ⟨(congrArg BitVec.toNat (readValue_offsetOf .status e)).trans (statusWord_toNat e.status),
    (congrArg BitVec.toNat (readValue_offsetOf .ctrl e)).trans (ctrlWord_toNat e.ie),
    readValue_offsetOf .ctrHi e, readValue_offsetOf .ctrLo e,
    fun j => ⟨readValue_offsetOf (.din j) e, readValue_offsetOf (.out j) e, readValue_offsetOf (.dout j) e⟩⟩

/-- Settles O43: a CTRL write stores IE alone, and without IE there is no irq (60_exceptions.md R116). -/
theorem ctrlKeepsOnlyItsEnableBit : Obligations.CtrlKeepsOnlyItsEnableBit := by
  refine ⟨fun s v rest hturn hs => ?_, rfl⟩
  refine ⟨_, step_of_write_reg (r := .ctrl) (by decide) hturn hs, rfl, ?_, fun hclear => ?_⟩
  · rw [← ctrlWord_getLsbD_zero v]
    exact busRead_offsetOf .ctrl _
  · simp only [irq, writeReg, hclear, Bool.false_and]

/-- Settles O44: the write acts by `statusClear`, which only clears. -/
theorem statusWriteOnlyClears : Obligations.StatusWriteOnlyClears := fun _ _ _ hturn hs =>
  step_of_write_reg (r := .status) (by decide) hturn hs

end Sys2Proof.Machine

/-! PROOF. Which steps write OUT, DOUT, KEY and DIN (10_state.md R13, R18 to R20), from what each step can do to the
engine. -/

namespace Sys2Proof.Machine

/-- Settles O20: of all the operations on the engine only completion and reset write OUT or DOUT. -/
theorem outputsChangeOnlyAtCompletionOrReset : Obligations.OutputsChangeOnlyAtCompletionOrReset := by
  intro s t hstep
  rcases step_engine_cases hstep with ⟨hturn, -⟩ | ⟨hturn, ⟨-, he⟩ | ⟨i, -, he⟩ | ⟨hemit, he⟩⟩ | ⟨-, he⟩ |
    ⟨-, off, v, -, -, he⟩ | ⟨-, c, he⟩ | ⟨-, -, _, _, -, -, -, op, ver, ai, len, -, he⟩
  · exact ⟨fun _ => .inl hturn, fun _ => .inl hturn⟩
  · simp [he]
  · simp [he]
  · refine ⟨fun _ => .inr ⟨hturn, hemit⟩, fun hdout => .inr ⟨hturn, hemit, ?_⟩⟩
    by_contra hop
    exact hdout (by simp [he, hop])
  · simp [he]
  · obtain ⟨hout, hdout, -⟩ := busWrite_frame off v s.engine
    simp [he, hout, hdout]
  · simp [he]
  · simp [he]

/-- What a step can do to KEY and DIN: keep them, reset them, or be a host write to a register other than CMD. -/
theorem step_inputs_cases {vc : Version → RoundConfig} {s t : State} (h : stepWith vc s = .next t) :
    (t.engine.key = s.engine.key ∧ t.engine.din = s.engine.din) ∨ turnOf s = .reset ∨
    (turnOf s = .host ∧ ∃ off v, s.script.head? = some (.wr off v) ∧ t.engine = busWrite off v s.engine) := by
  rcases step_engine_cases h with ⟨hturn, -⟩ | ⟨-, ⟨-, he⟩ | ⟨i, -, he⟩ | ⟨-, he⟩⟩ | ⟨-, he⟩ |
    ⟨hturn, off, v, hv, -, he⟩ | ⟨-, c, he⟩ | ⟨-, -, _, _, -, -, -, op, ver, ai, len, -, he⟩
  case inl => exact .inr (.inl hturn)
  case inr.inr.inr.inl => exact .inr (.inr ⟨hturn, off, v, hv, he⟩)
  all_goals exact .inl (by simp [he])

/-- Settles O21: a step that changes KEY or DIN is a reset or a write, and a write changes the word at its offset. -/
theorem keyAndDinAreWrittenOnlyByTheHost : Obligations.KeyAndDinAreWrittenOnlyByTheHost := by
  intro s t hstep
  obtain ⟨hkey, hdin⟩ | hturn | ⟨hturn, off, v, hv, he⟩ := step_inputs_cases hstep
  · exact ⟨fun hne => absurd hkey hne, fun hne => absurd hdin hne⟩
  · exact ⟨fun _ => .inl hturn, fun _ => .inl hturn⟩
  · refine ⟨fun hne => .inr ⟨hturn, ?_⟩, fun hne => .inr ⟨hturn, ?_⟩⟩
    · obtain hkey | ⟨j, rfl, hkey⟩ := busWrite_key off v s.engine
      · exact absurd (he ▸ hkey) hne
      · exact ⟨j, v, hv, fun k => by rw [he, hkey, wordAt_putWord]⟩
    · obtain hdin | ⟨j, rfl, hdin⟩ := busWrite_din off v s.engine
      · exact absurd (he ▸ hdin) hne
      · exact ⟨j, v, hv, fun k => by rw [he, hdin, wordAt_putWord]⟩

end Sys2Proof.Machine

/-! PROOF. The sequencer's position (10_state.md R16): which host writes start it, and where each turn takes it. -/

namespace Sys2Proof.Machine

@[simp] theorem deriveInstr_wellFormed (ver : Version) (ai : Bool) : (deriveInstr ver ai).wellFormed = true := by
  cases ver <;> rfl

@[simp] theorem transformInstr_wellFormed (ver : Version) (ai : Bool) (len : BitVec 6) :
    (transformInstr ver ai len).wellFormed = lenLegal len := by
  cases ver <;> rfl

theorem wellFormed_of_decodeOperands {v : Word} {ver : Version} {i : Instr} (h : decodeOperands v ver = .command i) :
    i.wellFormed = true := by
  unfold decodeOperands at h
  split at h
  · split at h
    · cases h
    · cases h
      exact deriveInstr_wellFormed _ _
  · split at h
    next hlegal =>
      cases h
      rwa [transformInstr_wellFormed]
    next => cases h

/-- The commands the decoder answers have a legal LEN (30_encoding.md R50). -/
theorem wellFormed_of_decodeWord {v : Word} {i : Instr} (h : decodeWord v = .command i) : i.wellFormed = true := by
  unfold decodeWord at h
  split at h
  · cases h
  split at h
  · cases h
  split at h
  · split at h
    · cases h
    · cases h
      rfl
  · split at h
    · cases h
    · exact wellFormed_of_decodeOperands h

theorem issue_of_idle (op : Operation) (ver : Version) (ai : Bool) (len : BitVec 6) {s : State}
    (hidle : s.engine.status.busy = false) :
    issue op ver ai len s = { s with engine := accept op ver ai len s.engine } := by
  simp [issue, hidle]

theorem issueTransform_of_idle (ver : Version) (ai : Bool) {len : BitVec 6} {s : State} (hlegal : lenLegal len = true)
    (hidle : s.engine.status.busy = false) :
    issueTransform ver ai len s = { s with engine := accept .transform ver ai len s.engine } := by
  simp [issueTransform, hlegal, issue_of_idle, hidle]

/-- A well-formed command other than NOP is accepted by an idle engine (43_driver.md R92). -/
theorem exec_of_idle {i : Instr} {s : State} (hwf : i.wellFormed = true) (hnop : i ≠ .nop)
    (hidle : s.engine.status.busy = false) :
    ∃ op ver ai len, exec i s = .next { s with engine := accept op ver ai len s.engine } := by
  cases i with
  | nop => exact absurd rfl hnop
  | deriveV10 ai | deriveV11 ai | deriveV20 ai =>
    exact ⟨_, _, _, _, congrArg Host.Outcome.next (issue_of_idle _ _ ai _ hidle)⟩
  | transformV10 ai len | transformV11 ai len | transformV20 ai len =>
    exact ⟨_, _, _, _, congrArg Host.Outcome.next (issueTransform_of_idle _ ai hwf hidle)⟩

/-- A word the decoder answers with a command is not written to a busy engine. -/
theorem idle_of_decode {v : Word} {busy : Bool} {i : Instr} (h : decode v busy = .command i) : busy = false := by
  cases busy with
  | false => rfl
  | true => simp [decode] at h

/-- A CMD write of an accepted DERIVE or TRANSFORM is an accept (43_driver.md R92, R93). -/
theorem step_of_accepted {vc : Version → RoundConfig} {s t : State} {v : Word} {i : Instr} (hw : writesCommand s v)
    (hd : decode v s.engine.status.busy = .command i) (hnop : i ≠ .nop) (hstep : stepWith vc s = .next t) :
    s.engine.status.busy = false ∧ ∃ op ver ai len, t.engine = accept op ver ai len s.engine := by
  obtain ⟨hturn, hv⟩ := hw
  obtain ⟨rest, hs⟩ := List.head?_eq_some_iff.mp hv
  have hidle := idle_of_decode hd
  rw [step_of_write hturn hs, if_pos rfl, hd] at hstep
  obtain ⟨op, ver, ai, len, he⟩ := exec_of_idle (s := afterAccess s (writeResponse (offsetOf .cmd)))
    (wellFormed_of_decodeWord (by rwa [hidle] at hd)) hnop hidle
  cases he.symm.trans hstep
  exact ⟨hidle, op, ver, ai, len, rfl⟩

theorem seqAfter_eq (i : Fin 16) : seqAfter i = if h : i.val < 15 then .run ⟨i.val + 1, by omega⟩ else .emit := by
  have hlast : i.val + 1 < 16 ↔ i.val < 15 := by omega
  simp only [seqAfter, hlast]

/-- A host turn moves the sequencer only by writing an accepted DERIVE or TRANSFORM (10_state.md R16). -/
theorem step_seq_of_host {vc : Version → RoundConfig} {s t : State} (hturn : turnOf s = .host)
    (hstep : stepWith vc s = .next t)
    (hnone : ¬ ∃ v i, writesCommand s v ∧ decode v s.engine.status.busy = .command i ∧ i ≠ .nop) :
    t.engine.seq = s.engine.seq := by
  rcases step_engine_cases hstep with ⟨h, -⟩ | ⟨h, -⟩ | ⟨-, he⟩ | ⟨-, off, v, -, -, he⟩ | ⟨-, c, he⟩ |
    ⟨-, hidle, v, i, hv, hd, hnop, -⟩
  · cases hturn.symm.trans h
  · cases hturn.symm.trans h
  · rw [he]
  · obtain ⟨-, -, -, -, hseq, -⟩ := busWrite_frame off v s.engine
    rw [he, hseq]
  · rw [he, reject_seq]
  · exact absurd ⟨v, i, ⟨hturn, hv⟩, hidle.symm ▸ hd, hnop⟩ hnone

/-- Settles O16: one lemma per agent's turn; the invariant turns BUSY = 0 at an accept into IDLE. -/
theorem sequencerFollowsItsTable : Obligations.SequencerFollowsItsTable := by
  refine ⟨fun s t hinv hstep => ⟨fun hturn => ?_, fun hturn => ?_, ?_, ?_⟩, rfl⟩
  · cases (step_of_reset hturn).symm.trans hstep
    rfl
  · cases (step_of_sequencer hturn).symm.trans hstep
    obtain ⟨hseq, he⟩ | ⟨i, hseq, he⟩ | ⟨hseq, he⟩ :=
      sequencerTurn_cases versionConfig { s with turns := s.turns.tail } <;> dsimp only at hseq <;> simp only [he, hseq]
    · exact seqAfter_eq i
    · rfl
  · rintro - ⟨v, i, hw, hd, hnop⟩
    obtain ⟨hidle, op, ver, ai, len, he⟩ := step_of_accepted hw hd hnop hstep
    refine ⟨?_, by rw [he, accept_seq]⟩
    by_contra hrun
    simp [hinv.busy_iff.mpr hrun] at hidle
  · exact fun hturn hnone => step_seq_of_host hturn hstep hnone

end Sys2Proof.Machine

/-! PROOF. The register window as a whole (20_memory.md R26 to R33): its map and addresses, misaligned, reserved,
read-only and write-only offsets, the reads, and the writes that store. -/

namespace Sys2Proof.Machine

/-! ### Offsets and addresses (20_memory.md R26, R27, R29) -/

theorem misaligned_iff (off : BitVec 8) : misaligned off = true ↔ off.toNat % 4 ≠ 0 := by simp [misaligned]

theorem misaligned_eq_false_iff (off : BitVec 8) : misaligned off = false ↔ off.toNat % 4 = 0 := by simp [misaligned]

/-- The reserved offsets: the aligned ones with no register (20_memory.md R27, R30). -/
theorem regAt_eq_none_iff : ∀ off : BitVec 8, off.toNat % 4 = 0 →
    (regAt off = none ↔ off = 0x0C ∨ off = 0x18 ∨ off = 0x1C ∨ 0xA0 ≤ off.toNat) := by
  decide

/-- A word of a file stands at its own place from an aligned base, below the window's end. -/
theorem wordOffset_toNat {base : Nat} (j : Fin 8) (hbase : base ≤ 0x80) :
    (BitVec.ofNat 8 (base + 4 * j.val)).toNat = base + 4 * j.val := by
  rw [BitVec.toNat_ofNat, Nat.mod_eq_of_lt (by omega)]

theorem windowOffset_busAddress (off : BitVec 8) : windowOffset (busAddress off) = some off := by
  have hlt : off.toNat < 256 := off.isLt
  rw [windowOffset, busAddress, if_pos (by omega), Nat.add_sub_cancel_left, BitVec.ofNat_toNat, BitVec.setWidth_eq]

theorem windowOffset_of_outside {addr : Nat} (h : addr < pBase ∨ pBase + 256 ≤ addr) : windowOffset addr = none :=
  if_neg (by omega)

/-! ### Accesses that reach no register (20_memory.md R29, R30) -/

theorem busRead_of_misaligned {off : BitVec 8} (e : Engine) (h : misaligned off = true) :
    busRead off e = ⟨true, some 0⟩ := if_pos h

theorem busWrite_of_misaligned {off : BitVec 8} (v : Word) (e : Engine) (h : misaligned off = true) :
    busWrite off v e = e := if_pos h

/-- No aligned read gets an error response, whether a register stands there or not. -/
theorem busRead_error_of_aligned {off : BitVec 8} (e : Engine) (h : misaligned off = false) :
    (busRead off e).error = false := by
  unfold busRead
  cases regAt off <;> simp [h]

theorem busRead_of_reserved {off : BitVec 8} (e : Engine) (h : misaligned off = false) (hr : regAt off = none) :
    busRead off e = ⟨false, some 0⟩ := by
  simp [busRead, h, hr]

theorem busWrite_of_reserved {off : BitVec 8} (v : Word) (e : Engine) (hr : regAt off = none) :
    busWrite off v e = e := by
  simp [busWrite, hr]

/-- An offset without a register is not CMD's. -/
theorem ne_cmd_of_reserved {off : BitVec 8} (hr : regAt off = none) : off ≠ offsetOf .cmd := by
  rintro rfl
  simp at hr

theorem ne_cmd_of_misaligned {off : BitVec 8} (h : misaligned off = true) : off ≠ offsetOf .cmd := by
  rintro rfl
  simp at h

/-- The step of a host write that the window ignores: the host hears the answer, and that is all. -/
theorem step_of_ignored_write {vc : Version → RoundConfig} {s : State} {off : BitVec 8} {v : Word}
    {rest : List HostLine} (hne : off ≠ offsetOf .cmd) (hkeep : busWrite off v s.engine = s.engine)
    (h : turnOf s = .host) (hs : s.script = .wr off v :: rest) :
    stepWith vc s = .next (afterAccess s (writeResponse off)) := by
  rw [step_of_write h hs, if_neg hne, hkeep]
  rfl

/-! ### The reserved bits of CTRL and STATUS (20_memory.md R31) -/

/-- A STATUS write acts by bits 1, 2 and 3 of its value only (10_state.md R10). -/
theorem statusClear_congr {v v' : Word} (t : Status) (h1 : v.getLsbD 1 = v'.getLsbD 1)
    (h2 : v.getLsbD 2 = v'.getLsbD 2) (h3 : v.getLsbD 3 = v'.getLsbD 3) : statusClear v t = statusClear v' t := by
  simp only [statusClear, h1, h2, h3]

theorem readValue_ctrl_lt (e : Engine) : (readValue (offsetOf .ctrl) e).toNat < 2 := by
  rw [readValue_offsetOf, readReg, ctrlWord_toNat]
  exact e.ie.toNat_lt

theorem readValue_status_lt (e : Engine) : (readValue (offsetOf .status) e).toNat < 256 := by
  rw [readValue_offsetOf, readReg, statusWord_toNat]
  have hbusy := e.status.busy.toNat_lt
  have hdone := e.status.done.toNat_lt
  have herr := e.status.err.toNat_lt
  have hcwrap := e.status.cwrap.toNat_lt
  have hcode := e.status.errCode.isLt
  omega

theorem busWrite_ctrl_and_one (v : Word) (e : Engine) :
    busWrite (offsetOf .ctrl) v e = busWrite (offsetOf .ctrl) (v &&& 1) e := by
  simp [writeReg]

theorem busWrite_status_and_ff (v : Word) (e : Engine) :
    busWrite (offsetOf .status) v e = busWrite (offsetOf .status) (v &&& 0xFF) e := by
  have hclear : statusClear v e.status = statusClear (v &&& 0xFF) e.status :=
    statusClear_congr _ (by simp) (by simp) (by simp)
  simp only [busWrite_offsetOf, writeReg, hclear]

/-! ### The read forms (20_memory.md R32, 30_encoding.md R54) -/

/-- The step of a host read at a register's offset: the host hears the register. -/
theorem step_of_read_reg {vc : Version → RoundConfig} {s : State} {r : Reg} {rest : List HostLine}
    (h : turnOf s = .host) (hs : s.script = .rd (offsetOf r) :: rest) :
    stepWith vc s = .next (afterAccess s ⟨false, some (readReg s.engine r)⟩) := by
  rw [step_of_read h hs, busRead_offsetOf]

/-- The step of a read with a stated value: the host records whether the value was the one returned. -/
theorem step_of_readStated {vc : Version → RoundConfig} {s : State} {off : BitVec 8} {v : Word}
    {rest : List HostLine} (h : turnOf s = .host) (hs : s.script = .rdStated off v :: rest) :
    stepWith vc s = .next { afterAccess s (busRead off s.engine) with
      scriptHolds := s.scriptHolds && readValue off s.engine == v } := by
  refine step_of_hostTurn_moved h ?_
  simp only [hostTurn, hs, hostRead, hear, afterAccess, List.tail_cons]

/-- The step of a poll: it goes on when the masked value is the awaited one, and otherwise stays. -/
theorem step_of_poll {vc : Version → RoundConfig} {s : State} {off : BitVec 8} {mask v : Word}
    {rest : List HostLine} (h : turnOf s = .host) (hs : s.script = .poll off mask v :: rest) :
    stepWith vc s = .next { afterAccess s (busRead off s.engine) with
      script := if readValue off s.engine &&& mask = v then rest else s.script } := by
  refine step_of_hostTurn_moved h ?_
  simp only [hostTurn, hs, hostRead, hear, afterAccess]

/-- The step of a host with no line left: nothing but the turn is used up. -/
theorem step_of_no_line {vc : Version → RoundConfig} {s : State} (h : turnOf s = .host) (hs : s.script = []) :
    stepWith vc s = .next { s with turns := s.turns.tail } := by
  refine step_of_hostTurn_moved h ?_
  simp only [hostTurn, hs]

/-- A host turn that issues no write leaves the engine as it was (20_memory.md R32). -/
theorem step_engine_of_no_write {vc : Version → RoundConfig} {s t : State} (hturn : turnOf s = .host)
    (hread : ∀ off v, s.script.head? ≠ some (.wr off v)) (hstep : stepWith vc s = .next t) :
    t.engine = s.engine := by
  cases hs : s.script with
  | nil => cases (step_of_no_line hturn hs).symm.trans hstep; rfl
  | cons line rest =>
    cases line with
    | wr off v => exact absurd (by rw [hs]; rfl) (hread off v)
    | rd off => cases (step_of_read hturn hs).symm.trans hstep; rfl
    | rdStated off v => cases (step_of_readStated hturn hs).symm.trans hstep; rfl
    | poll off mask v => cases (step_of_poll hturn hs).symm.trans hstep; rfl

/-! ### The obligations -/

/-- Settles O36: each register is found at its offset, and `regAt_eq_none_iff` lists the offsets without one. -/
theorem registerMapIsTheTable : Obligations.RegisterMapIsTheTable :=
  ⟨fun r => ⟨regAt_offsetOf r, misaligned_offsetOf r⟩, ⟨rfl, rfl, rfl, rfl, rfl⟩,
    fun j => ⟨wordOffset_toNat j (by decide), wordOffset_toNat j (by decide), wordOffset_toNat j (by decide),
      wordOffset_toNat j (by decide)⟩,
    regAt_eq_none_iff⟩

/-- Settles O37: P_BASE is a multiple of 256, and an address less P_BASE is its offset. -/
theorem windowAddressesAreOneToOne : Obligations.WindowAddressesAreOneToOne :=
  ⟨Nat.mul_mod_right 256 _, windowOffset_busAddress, fun _ => windowOffset_of_outside⟩

/-- Settles O38: a misaligned access reaches no register, and an aligned one is answered without an error. -/
theorem misalignedAccessIsAnErrorResponse : Obligations.MisalignedAccessIsAnErrorResponse := by
  refine ⟨fun s off rest hturn hoff hs => ?_, fun s off v rest hturn hoff hs => ?_, fun e off hoff => ?_,
    fun e off hoff => ?_⟩
  · rw [← busRead_of_misaligned s.engine ((misaligned_iff off).mpr hoff)]
    exact step_of_read hturn hs
  · have hmis := (misaligned_iff off).mpr hoff
    have hstep := step_of_ignored_write (vc := versionConfig) (ne_cmd_of_misaligned hmis)
      (busWrite_of_misaligned v s.engine hmis) hturn hs
    rwa [writeResponse, hmis] at hstep
  · have hread := busRead_of_misaligned e ((misaligned_iff off).mpr hoff)
    exact ⟨hread, by rw [readValue, hread]; rfl⟩
  · have halign := (misaligned_eq_false_iff off).mpr hoff
    exact ⟨busRead_error_of_aligned e halign, by rw [writeResponse, halign]⟩

/-- Settles O39: the listed offsets are aligned and have no register. -/
theorem reservedOffsetsReadZeroAndIgnoreWrites : Obligations.ReservedOffsetsReadZeroAndIgnoreWrites := by
  intro s off rest hturn hoff
  have hmod : off.toNat % 4 = 0 := by
    obtain rfl | rfl | rfl | ⟨-, h⟩ := hoff
    · rfl
    · rfl
    · rfl
    · exact h
  have hnone : regAt off = none :=
    (regAt_eq_none_iff off hmod).mpr (hoff.imp_right (Or.imp_right (Or.imp_right And.left)))
  have halign := (misaligned_eq_false_iff off).mpr hmod
  have hread := busRead_of_reserved s.engine halign hnone
  refine ⟨fun hs => ?_, ⟨hread, by rw [readValue, hread]; rfl⟩, fun v hs => ?_⟩
  · rw [← hread]
    exact step_of_read hturn hs
  · have hstep := step_of_ignored_write (vc := versionConfig) (ne_cmd_of_reserved hnone)
      (busWrite_of_reserved v s.engine hnone) hturn hs
    rwa [writeResponse, halign] at hstep

/-- Settles O40: OUT and DOUT are registers a write keeps, CMD and KEY registers that read 0, and the words of CTRL
and STATUS hold their fields only. -/
theorem readOnlyAndWriteOnlyRegisters : Obligations.ReadOnlyAndWriteOnlyRegisters := by
  refine ⟨fun s j v rest hturn hs => ?_, fun s j rest hturn hs => ?_, fun e j => ?_, fun e => ?_, fun e v => ?_⟩
  · obtain hout | hdout := hs
    · exact step_of_write_reg (r := .out j) (by simp) hturn hout
    · exact step_of_write_reg (r := .dout j) (by simp) hturn hdout
  · obtain hcmd | hkey := hs
    · exact step_of_read_reg (r := .cmd) hturn hcmd
    · exact step_of_read_reg (r := .key j) hturn hkey
  · exact ⟨busRead_offsetOf .cmd e, readValue_offsetOf .cmd e, busRead_offsetOf (.key j) e,
      readValue_offsetOf (.key j) e⟩
  · exact ⟨readValue_ctrl_lt e, readValue_status_lt e⟩
  · exact ⟨busWrite_ctrl_and_one v e, busWrite_status_and_ff v e⟩

/-- Settles O41: one step lemma for each read form; two reads with nothing between them are two such steps. -/
theorem readsHaveNoSideEffect : Obligations.ReadsHaveNoSideEffect := by
  refine ⟨fun s t => step_engine_of_no_write, fun s off rest => step_of_read, fun s off v rest hturn hs => ?_,
    fun s off mask v rest => step_of_poll, fun s off ts rest hturns hs => ?_⟩
  · refine ⟨_, step_of_readStated hturn hs, rfl, rfl, fun hv => ?_⟩
    simp [hv, afterAccess]
  · have hfirst : stepWith versionConfig s = .next (afterAccess s (busRead off s.engine)) :=
      step_of_read (by simp [turnOf, hturns]) hs
    have hsecond := step_of_read (vc := versionConfig) (s := afterAccess s (busRead off s.engine)) (off := off)
      (rest := rest) (by simp [turnOf, hturns]) (by simp [hs])
    exact ⟨_, ⟨_, hfirst, _, hsecond, rfl⟩, rfl, rfl⟩

/-- Settles O45: a write to a register of one word is `step_of_write_reg`, and in a file `putWord` writes one word. -/
theorem plainWritesStoreAndNothingElse : Obligations.PlainWritesStoreAndNothingElse := fun s v _ hturn =>
  ⟨step_of_write_reg (r := .ctrHi) (by simp) hturn, step_of_write_reg (r := .ctrLo) (by simp) hturn,
    fun j hs => ⟨_, step_of_write_reg (r := .key j) (by simp) hturn hs, fun i => wordAt_putWord s.engine.key j i v⟩,
    fun j hs => ⟨_, step_of_write_reg (r := .din j) (by simp) hturn hs, fun i => wordAt_putWord s.engine.din j i v⟩⟩

end Sys2Proof.Machine

/-! PROOF. With no command running the outputs stay (20_memory.md R37 item 3): what a step leaves of the turns and the
script, and a relation to the start of the run that every step of such a run keeps. -/

namespace Sys2Proof.Machine

/-! ### What a step leaves of the host's fields -/

/-- A command touches the engine only (43_driver.md R102 to R104). -/
theorem exec_next (i : Instr) (s : State) : ∃ e, exec i s = .next { s with engine := e } := by
  obtain ⟨-, -, h⟩ | ⟨c, h⟩ | ⟨-, op, ver, ai, len, -, h⟩ := exec_cases i s
  · exact ⟨s.engine, h⟩
  · exact ⟨_, h⟩
  · exact ⟨_, h⟩

theorem sequencerTurn_turns (vc : Version → RoundConfig) (s : State) : (sequencerTurn vc s).turns = s.turns := by
  obtain ⟨-, h⟩ | ⟨i, -, h⟩ | ⟨-, h⟩ := sequencerTurn_cases vc s <;> rw [h]

theorem sequencerTurn_script (vc : Version → RoundConfig) (s : State) : (sequencerTurn vc s).script = s.script := by
  obtain ⟨-, h⟩ | ⟨i, -, h⟩ | ⟨-, h⟩ := sequencerTurn_cases vc s <;> rw [h]

/-- The step of a host write answers a next state, with the turn and the line used up. -/
theorem step_of_write_next (vc : Version → RoundConfig) {s : State} {off : BitVec 8} {v : Word}
    {rest : List HostLine} (h : turnOf s = .host) (hs : s.script = .wr off v :: rest) :
    ∃ e, stepWith vc s = .next { afterAccess s (writeResponse off) with engine := e } := by
  rw [step_of_write h hs]
  split
  · cases decode v s.engine.status.busy with
    | reject c => exact ⟨_, rfl⟩
    | command i => exact exec_next i _
  · exact ⟨_, rfl⟩

/-- Every step answers a next state, uses up one turn, and goes on in the script or stays at its line. -/
theorem stepWith_next (vc : Version → RoundConfig) (s : State) :
    ∃ t, stepWith vc s = .next t ∧ t.turns = s.turns.tail ∧ t.script <:+ s.script := by
  cases hturn : turnOf s with
  | sequencer =>
    exact ⟨_, step_of_sequencer hturn, sequencerTurn_turns _ _, by rw [sequencerTurn_script]⟩
  | reset => exact ⟨_, step_of_reset hturn, rfl, List.suffix_rfl⟩
  | host =>
    cases hs : s.script with
    | nil => exact ⟨_, step_of_no_line hturn hs, rfl, hs ▸ List.suffix_rfl⟩
    | cons line rest =>
      have htail : s.script.tail <:+ line :: rest := hs ▸ List.tail_suffix _
      cases line with
      | wr off v =>
        obtain ⟨e, he⟩ := step_of_write_next vc hturn hs
        exact ⟨_, he, rfl, htail⟩
      | rd off => exact ⟨_, step_of_read hturn hs, rfl, htail⟩
      | rdStated off v => exact ⟨_, step_of_readStated hturn hs, rfl, htail⟩
      | poll off mask v =>
        refine ⟨_, step_of_poll hturn hs, rfl, ?_⟩
        dsimp only
        split
        · exact List.suffix_cons _ _
        · rw [hs]

/-! ### Runs that keep a property -/

/-- A property that every step keeps holds along the run of any length. -/
theorem exists_reaches_of_step {vc : Version → RoundConfig} {p : State → Prop}
    (hstep : ∀ u, p u → ∃ t, stepWith vc u = .next t ∧ p t) (n : Nat) {s : State} (h : p s) :
    ∃ u, Reaches vc n s u ∧ p u := by
  induction n generalizing s with
  | zero => exact ⟨s, rfl, h⟩
  | succ n ih =>
    obtain ⟨t, ht, hp⟩ := hstep s h
    obtain ⟨u, hu, hpu⟩ := ih hp
    exact ⟨u, ⟨t, ht, hu⟩, hpu⟩

/-! ### A run in which no command runs -/

/-- A write that is at neither half of CTR leaves CTR as it is (20_memory.md R33). -/
theorem busWrite_ctr {off : BitVec 8} (v : Word) (e : Engine) (hhi : off ≠ offsetOf .ctrHi)
    (hlo : off ≠ offsetOf .ctrLo) : (busWrite off v e).ctrHi = e.ctrHi ∧ (busWrite off v e).ctrLo = e.ctrLo := by
  obtain h | ⟨r, rfl, h⟩ := busWrite_cases off v e <;> rw [h]
  · exact ⟨rfl, rfl⟩
  · cases r with
    | ctrHi => exact absurd rfl hhi
    | ctrLo => exact absurd rfl hlo
    | _ => exact ⟨rfl, rfl⟩

/-- No write that is not a command touches BUSY (10_state.md R10). -/
theorem busWrite_busy (off : BitVec 8) (v : Word) (e : Engine) :
    (busWrite off v e).status.busy = e.status.busy := by
  obtain ⟨-, -, -, -, -, -, hkept | hclear⟩ := busWrite_frame off v e
  · rw [hkept]
  · rw [hclear, statusClear_busy]

/-- With an idle sequencer and neither a reset nor a CMD write due, a step leaves the engine alone or is a host write
to a register (10_state.md R16, 20_memory.md R32, R33). -/
theorem step_engine_of_idle {vc : Version → RoundConfig} {s t : State} (hseq : s.engine.seq = .idle)
    (hreset : turnOf s ≠ .reset) (hcmd : ∀ v, s.script.head? ≠ some (.wr (offsetOf .cmd) v))
    (hstep : stepWith vc s = .next t) :
    t.engine = s.engine ∨ ∃ off v, s.script.head? = some (.wr off v) ∧ t.engine = busWrite off v s.engine := by
  cases hturn : turnOf s with
  | reset => exact absurd hturn hreset
  | sequencer =>
    cases (step_of_sequencer hturn).symm.trans hstep
    simp [sequencerTurn, hseq]
  | host =>
    by_cases hwrite : ∃ off v, s.script.head? = some (.wr off v)
    · obtain ⟨off, v, hv⟩ := hwrite
      obtain ⟨rest, hs⟩ := List.head?_eq_some_iff.mp hv
      have hne : off ≠ offsetOf .cmd := fun heq => hcmd v (heq ▸ hv)
      rw [step_of_write hturn hs, if_neg hne] at hstep
      cases hstep
      exact .inr ⟨off, v, hv, rfl⟩
    · push Not at hwrite
      exact .inl (step_engine_of_no_write hturn hwrite hstep)

/-- A reset that is due stands among the turns. -/
theorem reset_mem_of_turnOf {s : State} (h : turnOf s = .reset) : Turn.reset ∈ s.turns := by
  unfold turnOf at h
  cases hturns : s.turns with
  | nil => simp [hturns] at h
  | cons turn rest => simp [hturns] at h; simp [h]

/-- The machine `u` has run no command since `s` and none is due: it is idle with no reset ahead, its script is what
is left of that of `s`, and the outputs are those of `s`, CTR too if that script does not write it. -/
structure IdleSince (s u : State) : Prop where
  busy : u.engine.status.busy = false
  seq : u.engine.seq = .idle
  noReset : Turn.reset ∉ u.turns
  script : u.script <:+ s.script
  out : u.engine.out = s.engine.out
  dout : u.engine.dout = s.engine.dout
  ctr : (∀ v, HostLine.wr (offsetOf .ctrHi) v ∉ s.script ∧ HostLine.wr (offsetOf .ctrLo) v ∉ s.script) →
    u.engine.ctrHi = s.engine.ctrHi ∧ u.engine.ctrLo = s.engine.ctrLo

/-- A machine that meets the invariant with BUSY 0 and no reset ahead is idle since itself. -/
theorem IdleSince.refl {s : State} (hinv : s.Inv) (hbusy : s.engine.status.busy = false)
    (hreset : Turn.reset ∉ s.turns) : IdleSince s s where
  busy := hbusy
  seq := by
    by_contra hrun
    simp [hinv.busy_iff.mpr hrun] at hbusy
  noReset := hreset
  script := List.suffix_rfl
  out := rfl
  dout := rfl
  ctr _ := ⟨rfl, rfl⟩

/-- Every step keeps `IdleSince s` if the script of `s` writes no command: the step changes the engine by a register write at
most, and that is at CTR only if the script says so. -/
theorem IdleSince.step {vc : Version → RoundConfig} {s u : State} (h : IdleSince s u)
    (hcmd : ∀ v, HostLine.wr (offsetOf .cmd) v ∉ s.script) : ∃ t, stepWith vc u = .next t ∧ IdleSince s t := by
  obtain ⟨t, hstep, hturns, hscript⟩ := stepWith_next vc u
  have hmem {line : HostLine} (hline : u.script.head? = some line) : line ∈ s.script :=
    h.script.subset (List.mem_of_head? hline)
  have hnoReset : Turn.reset ∉ t.turns := fun hr => h.noReset (List.mem_of_mem_tail (hturns ▸ hr))
  refine ⟨t, hstep, ?_⟩
  obtain he | ⟨off, v, hv, he⟩ := step_engine_of_idle h.seq (fun hr => h.noReset (reset_mem_of_turnOf hr))
    (fun v hv => hcmd v (hmem hv)) hstep
  · exact ⟨he ▸ h.busy, he ▸ h.seq, hnoReset, hscript.trans h.script, he ▸ h.out, he ▸ h.dout, he ▸ h.ctr⟩
  · obtain ⟨hout, hdout, -, -, hseq, -⟩ := busWrite_frame off v u.engine
    refine ⟨by rw [he, busWrite_busy, h.busy], by rw [he, hseq, h.seq], hnoReset, hscript.trans h.script,
      by rw [he, hout, h.out], by rw [he, hdout, h.dout], fun hctr => ?_⟩
    obtain ⟨hnoHi, hnoLo⟩ := hctr v
    obtain ⟨hhi, hlo⟩ := busWrite_ctr (off := off) v u.engine (fun heq => hnoHi (heq ▸ hmem hv))
      (fun heq => hnoLo (heq ▸ hmem hv))
    rw [he, hhi, hlo]
    exact h.ctr hctr

/-- Settles O58: `IdleSince` holds at the start and every step keeps it. -/
theorem outputsStayUntilTheNextCommand : Obligations.OutputsStayUntilTheNextCommand := by
  intro vc s hinv hbusy hreset hcmd n
  obtain ⟨u, hu, h⟩ := exists_reaches_of_step (vc := vc) (fun _ hw => IdleSince.step hw hcmd) n
    (IdleSince.refl hinv hbusy hreset)
  exact ⟨u, hu, h.busy, h.out, h.dout, h.ctr⟩

end Sys2Proof.Machine

/-! PROOF. The command word (30_encoding.md R43 to R54): its fields as arithmetic, the encoder and the decoder as inverses
of each other, and the rows of the opcode table. -/

namespace Sys2Proof

/-! ### The fields of a word as arithmetic (30_encoding.md R43) -/

/-- A field of a word as arithmetic on the word's number. -/
theorem extractLsb'_toNat_div (v : Word) (start len : Nat) :
    (v.extractLsb' start len).toNat = v.toNat / 2 ^ start % 2 ^ len := by
  rw [BitVec.extractLsb'_toNat, Nat.shiftRight_eq_div_pow]

theorem opField_toNat (v : Word) : (opField v).toNat = v.toNat % 16 := by
  rw [opField, extractLsb'_toNat_div, pow_zero, Nat.div_one]
  rfl

theorem verField_toNat (v : Word) : (verField v).toNat = v.toNat / 16 % 4 := extractLsb'_toNat_div v 4 2

theorem lenField_toNat (v : Word) : (lenField v).toNat = v.toNat / 256 % 64 := extractLsb'_toNat_div v 8 6

theorem nopUnused_toNat (v : Word) : (nopUnused v).toNat = v.toNat / 16 % 1024 := extractLsb'_toNat_div v 4 10

theorem reservedHigh_toNat (v : Word) : (reservedHigh v).toNat = v.toNat / 2 ^ 14 := by
  have hword := v.isLt
  rw [reservedHigh, extractLsb'_toNat_div]
  omega

/-- A field equals a constant when its number does. -/
theorem opField_eq_iff (v : Word) (c : BitVec 4) : opField v = c ↔ v.toNat % 16 = c.toNat := by
  rw [← BitVec.toNat_inj, opField_toNat]

theorem lenField_eq_iff (v : Word) (c : BitVec 6) : lenField v = c ↔ v.toNat / 256 % 64 = c.toNat := by
  rw [← BitVec.toNat_inj, lenField_toNat]

theorem nopUnused_eq_iff (v : Word) (c : BitVec 10) : nopUnused v = c ↔ v.toNat / 16 % 1024 = c.toNat := by
  rw [← BitVec.toNat_inj, nopUnused_toNat]

theorem reservedHigh_eq_iff (v : Word) (c : BitVec 18) : reservedHigh v = c ↔ v.toNat / 2 ^ 14 = c.toNat := by
  rw [← BitVec.toNat_inj, reservedHigh_toNat]

theorem aiField_eq (v : Word) : aiField v = decide (v.toNat / 64 % 2 = 1) := by
  rw [aiField, BitVec.getLsbD, Nat.testBit_eq_decide_div_mod_eq]

theorem reservedBit7_eq (v : Word) : reservedBit7 v = decide (v.toNat / 2 ^ 7 % 2 = 1) := by
  rw [reservedBit7, BitVec.getLsbD, Nat.testBit_eq_decide_div_mod_eq]

theorem commandWord_toNat (op : BitVec 4) (ver : BitVec 2) (ai : Bool) (len : BitVec 6) :
    (commandWord op ver ai len).toNat = op.toNat + 16 * ver.toNat + 64 * ai.toNat + 256 * len.toNat := by
  simp only [commandWord, BitVec.toNat_cast, Machine.append_toNat, BitVec.toNat_ofBool, BitVec.toNat_ofNat]
  omega

/-! ### The fields of a command word -/

section
variable (op : BitVec 4) (ver : BitVec 2) (ai : Bool) (len : BitVec 6)

@[simp] theorem opField_commandWord : opField (commandWord op ver ai len) = op := by
  apply BitVec.eq_of_toNat_eq
  rw [opField_toNat, commandWord_toNat]
  omega

@[simp] theorem verField_commandWord : verField (commandWord op ver ai len) = ver := by
  apply BitVec.eq_of_toNat_eq
  rw [verField_toNat, commandWord_toNat]
  omega

@[simp] theorem lenField_commandWord : lenField (commandWord op ver ai len) = len := by
  apply BitVec.eq_of_toNat_eq
  have hai := ai.toNat_lt
  rw [lenField_toNat, commandWord_toNat]
  omega

@[simp] theorem aiField_commandWord : aiField (commandWord op ver ai len) = ai := by
  rw [aiField_eq, commandWord_toNat]
  cases ai <;> simp <;> omega

@[simp] theorem reservedBit7_commandWord : reservedBit7 (commandWord op ver ai len) = false := by
  have hai := ai.toNat_lt
  rw [reservedBit7_eq, commandWord_toNat, decide_eq_false_iff_not]
  omega

@[simp] theorem reservedHigh_commandWord : reservedHigh (commandWord op ver ai len) = 0 := by
  have hai := ai.toNat_lt
  have hlen := len.isLt
  rw [reservedHigh_eq_iff, commandWord_toNat]
  exact Nat.div_eq_of_lt (by omega)

end

/-- A word is its six fields (30_encoding.md R43). -/
theorem word_ext_fields {v w : Word} (hop : opField v = opField w) (hver : verField v = verField w)
    (hai : aiField v = aiField w) (hbit : reservedBit7 v = reservedBit7 w) (hlen : lenField v = lenField w)
    (hhigh : reservedHigh v = reservedHigh w) : v = w := by
  rw [opField_eq_iff, opField_toNat] at hop
  rw [← BitVec.toNat_inj, verField_toNat, verField_toNat] at hver
  rw [aiField_eq, aiField_eq, decide_eq_decide] at hai
  rw [reservedBit7_eq, reservedBit7_eq, decide_eq_decide] at hbit
  rw [lenField_eq_iff, lenField_toNat] at hlen
  rw [reservedHigh_eq_iff, reservedHigh_toNat] at hhigh
  exact BitVec.eq_of_toNat_eq (by omega)

/-- A word whose reserved bits are 0 is the command word of its fields. -/
theorem eq_commandWord_of_reserved {v : Word} (hhigh : reservedHigh v = 0) (hbit : reservedBit7 v = false) :
    v = commandWord (opField v) (verField v) (aiField v) (lenField v) := by
  apply word_ext_fields <;> simp [hhigh, hbit]

/-- A NOP word with nothing in the bits it does not use is the word 0 (30_encoding.md R49). -/
theorem eq_zero_of_nop {v : Word} (hhigh : reservedHigh v = 0) (hop : opField v = 0) (hunused : nopUnused v = 0) :
    v = 0 := by
  simp only [reservedHigh_eq_iff, opField_eq_iff, nopUnused_eq_iff, BitVec.ofNat_eq_ofNat, BitVec.toNat_ofNat]
    at hhigh hop hunused
  exact BitVec.eq_of_toNat_eq (by simp only [BitVec.ofNat_eq_ofNat, BitVec.toNat_ofNat]; omega)

/-! ### Encoding and then decoding -/

@[simp] theorem versionOf_versionCode (ver : Version) : versionOf (versionCode ver) = some ver := by
  cases ver <;> rfl

/-- Only the code of a version names it (30_encoding.md R45). -/
theorem versionCode_of_versionOf (code : BitVec 2) (ver : Version) (h : versionOf code = some ver) :
    versionCode ver = code := by
  cases ver <;> revert code <;> decide

@[simp] theorem encode_deriveInstr (ver : Version) (ai : Bool) :
    encode (deriveInstr ver ai) = commandWord 1 (versionCode ver) ai 0 := by
  cases ver <;> rfl

@[simp] theorem encode_transformInstr (ver : Version) (ai : Bool) (len : BitVec 6) :
    encode (transformInstr ver ai len) = commandWord 2 (versionCode ver) ai len := by
  cases ver <;> rfl

theorem decodeWord_derive (ver : Version) (ai : Bool) :
    decodeWord (commandWord 1 (versionCode ver) ai 0) = .command (deriveInstr ver ai) := by
  simp [decodeWord, decodeOperands]

theorem decodeWord_transform (ver : Version) (ai : Bool) {len : BitVec 6} (hlegal : lenLegal len = true) :
    decodeWord (commandWord 2 (versionCode ver) ai len) = .command (transformInstr ver ai len) := by
  simp [decodeWord, decodeOperands, hlegal]

/-- Decoding undoes encoding on the commands with a legal LEN. -/
theorem decodeWord_encode {i : Instr} (hwf : i.wellFormed = true) : decodeWord (encode i) = .command i := by
  cases i with
  | nop => rfl
  | deriveV10 ai => exact decodeWord_derive .v10 ai
  | deriveV11 ai => exact decodeWord_derive .v11 ai
  | deriveV20 ai => exact decodeWord_derive .v20 ai
  | transformV10 ai len => exact decodeWord_transform .v10 ai hwf
  | transformV11 ai len => exact decodeWord_transform .v11 ai hwf
  | transformV20 ai len => exact decodeWord_transform .v20 ai hwf

/-! ### Decoding and then encoding -/

theorem encode_of_decodeOperands {v : Word} {ver : Version} {i : Instr} (hop : opField v = 1 ∨ opField v = 2)
    (h : decodeOperands v ver = .command i) :
    encode i = commandWord (opField v) (versionCode ver) (aiField v) (lenField v) := by
  unfold decodeOperands at h
  split at h
  next hderive =>
    split at h
    next => cases h
    next hlen =>
      cases h
      rw [encode_deriveInstr, hderive, not_ne_iff.mp hlen]
  next hderive =>
    split at h
    next =>
      cases h
      rw [encode_transformInstr, hop.resolve_left hderive]
    next => cases h

/-- A word that decodes to a command is the encoding of that command. -/
theorem encode_of_decodeWord {v : Word} {i : Instr} (h : decodeWord v = .command i) : encode i = v := by
  unfold decodeWord at h
  split at h
  · cases h
  next hreserved =>
  obtain ⟨hhigh, hbit⟩ := not_or.mp hreserved
  rw [not_ne_iff] at hhigh
  rw [Bool.not_eq_true] at hbit
  split at h
  · cases h
  next hopcode =>
  split at h
  next hnop =>
    split at h
    next => cases h
    next hunused =>
      cases h
      exact (eq_zero_of_nop hhigh hnop (not_ne_iff.mp hunused)).symm
  next hnop =>
    split at h
    next => cases h
    next ver hver =>
      have hop : opField v = 1 ∨ opField v = 2 := by bv_omega
      rw [encode_of_decodeOperands hop h, versionCode_of_versionOf _ _ hver]
      exact (eq_commandWord_of_reserved hhigh hbit).symm

/-- The accepted words are the encodings of the well-formed commands (30_encoding.md R50, R51). -/
theorem decode_eq_command_iff {v : Word} {i : Instr} :
    decode v false = .command i ↔ i.wellFormed = true ∧ v = encode i := by
  constructor
  · exact fun h => ⟨Machine.wellFormed_of_decodeWord h, (encode_of_decodeWord h).symm⟩
  · rintro ⟨hwf, rfl⟩
    exact decodeWord_encode hwf

/-- Settles O2: no check of R50 fails on the word of a well-formed command. -/
theorem decodeOfEncodeIsTheCommand : Obligations.DecodeOfEncodeIsTheCommand := fun _ hwf => decodeWord_encode hwf

/-- Settles O1: each word written out is the encoding of its command. -/
theorem opcodeTableWordsDecode : Obligations.OpcodeTableWordsDecode :=
  ⟨decodeWord_encode (i := .nop) rfl, decodeWord_encode (i := .deriveV10 false) rfl,
    decodeWord_encode (i := .deriveV11 true) rfl, decodeWord_encode (i := .deriveV20 true) rfl,
    decodeWord_encode (i := .transformV10 true 32) rfl, decodeWord_encode (i := .transformV11 false 1) rfl,
    decodeWord_encode (i := .transformV20 false 1) rfl⟩

/-- Settles O5: a `cmd` line takes its word from the same fields as the encoder. -/
theorem cmdLinesWriteTheEncodings : Obligations.CmdLinesWriteTheEncodings :=
  ⟨rfl, fun ver ai => by rw [encode_deriveInstr]; rfl, fun ver ai len => by rw [encode_transformInstr]; rfl⟩

/-! ### The rows of the opcode table (30_encoding.md R51) -/

/-- The word of every command has the bits its row fixes. -/
theorem encode_and_rowMask (i : Instr) : encode i &&& Laws.rowMask i = Laws.rowMatch i := by
  cases i with
  | nop => exact Laws.EncodeMatchesRow.nop
  | deriveV10 ai => exact Laws.EncodeMatchesRow.deriveV10 ai
  | deriveV11 ai => exact Laws.EncodeMatchesRow.deriveV11 ai
  | deriveV20 ai => exact Laws.EncodeMatchesRow.deriveV20 ai
  | transformV10 ai len => exact Laws.EncodeMatchesRow.transformV10 ai len
  | transformV11 ai len => exact Laws.EncodeMatchesRow.transformV11 ai len
  | transformV20 ai len => exact Laws.EncodeMatchesRow.transformV20 ai len

/-- Words that agree under a mask agree on every field the mask keeps whole. -/
theorem extractLsb'_eq_of_and_eq {v w m : Word} {start len : Nat} (h : v &&& m = w &&& m)
    (hm : m.extractLsb' start len = BitVec.allOnes len) : v.extractLsb' start len = w.extractLsb' start len := by
  have hfield := congrArg (BitVec.extractLsb' start len) h
  simpa [BitVec.extractLsb'_and, hm] using hfield

/-- A row fixes every bit, every bit but AI, or every bit but AI and LEN. -/
theorem rowMask_cases (i : Instr) :
    Laws.rowMask i = 0xFFFFFFFF ∨ Laws.rowMask i = 0xFFFFFFBF ∨ Laws.rowMask i = 0xFFFFC0BF := by
  cases i <;> simp [Laws.rowMask]

/-- Every row fixes OP, VER and the reserved bits. -/
theorem rowMask_fixes (i : Instr) :
    opField (Laws.rowMask i) = BitVec.allOnes 4 ∧ verField (Laws.rowMask i) = BitVec.allOnes 2 ∧
      reservedBit7 (Laws.rowMask i) = true ∧ reservedHigh (Laws.rowMask i) = BitVec.allOnes 18 := by
  obtain h | h | h := rowMask_cases i <;> rw [h] <;> decide

/-- The only bits a row leaves open are AI and LEN (30_encoding.md R51). -/
theorem eq_encode_of_row {v : Word} {i : Instr} (hrow : v &&& Laws.rowMask i = Laws.rowMatch i)
    (hai : aiField v = aiField (encode i)) (hlen : lenField v = lenField (encode i)) : v = encode i := by
  have hagree : v &&& Laws.rowMask i = encode i &&& Laws.rowMask i := hrow.trans (encode_and_rowMask i).symm
  obtain ⟨hop, hver, hmask, hhigh⟩ := rowMask_fixes i
  rw [reservedBit7] at hmask
  have hbit : reservedBit7 v = reservedBit7 (encode i) := by
    simpa only [reservedBit7, BitVec.getLsbD_and, hmask, Bool.and_true] using congrArg (·.getLsbD 7) hagree
  exact word_ext_fields (extractLsb'_eq_of_and_eq hagree hop) (extractLsb'_eq_of_and_eq hagree hver) hai hbit hlen
    (extractLsb'_eq_of_and_eq hagree hhigh)

theorem decode_nop_iff (v : Word) :
    decode v false = .command .nop ↔ v &&& Laws.rowMask .nop = Laws.rowMatch .nop := by
  rw [decode_eq_command_iff]
  constructor
  · rintro ⟨-, rfl⟩
    exact encode_and_rowMask .nop
  · intro hrow
    exact ⟨rfl, (BitVec.and_allOnes (x := v)).symm.trans hrow⟩

theorem decode_derive_iff (v : Word) (ver : Version) (ai : Bool) :
    decode v false = .command (deriveInstr ver ai) ↔
      v &&& Laws.rowMask (deriveInstr ver ai) = Laws.rowMatch (deriveInstr ver ai) ∧ aiField v = ai := by
  rw [decode_eq_command_iff]
  constructor
  · rintro ⟨-, rfl⟩
    exact ⟨encode_and_rowMask _, by simp⟩
  · rintro ⟨hrow, rfl⟩
    have hagree := hrow.trans (encode_and_rowMask _).symm
    have hmask : Laws.rowMask (deriveInstr ver (aiField v)) = 0xFFFFFFBF := by cases ver <;> rfl
    refine ⟨by simp, eq_encode_of_row hrow (by simp) (extractLsb'_eq_of_and_eq hagree ?_)⟩
    rw [hmask]
    decide

theorem decode_transform_iff (v : Word) (ver : Version) (ai : Bool) (len : BitVec 6) :
    decode v false = .command (transformInstr ver ai len) ↔
      v &&& Laws.rowMask (transformInstr ver ai len) = Laws.rowMatch (transformInstr ver ai len) ∧ aiField v = ai ∧
        v.toNat / 256 % 64 = len.toNat ∧ 1 ≤ len.toNat ∧ len.toNat ≤ 32 := by
  rw [decode_eq_command_iff, Machine.transformInstr_wellFormed, lenLegal, Bool.and_eq_true, decide_eq_true_iff,
    decide_eq_true_iff, ← lenField_eq_iff]
  constructor
  · rintro ⟨hlegal, rfl⟩
    exact ⟨encode_and_rowMask _, by simp, by simp, hlegal⟩
  · rintro ⟨hrow, rfl, rfl, hlegal⟩
    exact ⟨hlegal, eq_encode_of_row hrow (by simp) (by simp)⟩

/-- Settles O3: each row is one of the three forms of a row, at its version. -/
theorem acceptedWordsAreTheOpcodeTable : Obligations.AcceptedWordsAreTheOpcodeTable := fun v =>
  ⟨decode_nop_iff v, decode_derive_iff v .v10, decode_derive_iff v .v11, decode_derive_iff v .v20,
    decode_transform_iff v .v10, decode_transform_iff v .v11, decode_transform_iff v .v20⟩

/-! ### The checks in order (30_encoding.md R50) -/

theorem versionOf_verField (v : Word) : versionOf (verField v) =
    if v.toNat / 16 % 4 = 3 then none
    else some (if v.toNat / 16 % 4 = 0 then .v10 else if v.toNat / 16 % 4 = 1 then .v11 else .v20) := by
  have hlt : v.toNat / 16 % 4 < 4 := Nat.mod_lt _ (by decide)
  rw [versionOf, verField_toNat]
  interval_cases v.toNat / 16 % 4 <;> rfl

theorem lenLegal_lenField (v : Word) :
    lenLegal (lenField v) = true ↔ ¬ (v.toNat / 256 % 64 = 0 ∨ 32 < v.toNat / 256 % 64) := by
  rw [lenLegal, lenField_toNat, Bool.and_eq_true, decide_eq_true_iff, decide_eq_true_iff]
  omega

theorem lenField_eq_ofNat (v : Word) : lenField v = BitVec.ofNat 6 (v.toNat / 256) :=
  by
  rw [lenField_eq_iff, BitVec.toNat_ofNat]

/-- The verdict once OP and VER are known legal, by arithmetic. -/
theorem decodeOperands_eq (v : Word) (ver : Version) : decodeOperands v ver =
    if v.toNat % 16 = 1 then
      if v.toNat / 256 % 64 ≠ 0 then .reject .rsvd
      else .command (deriveInstr ver (decide (v.toNat / 64 % 2 = 1)))
    else if v.toNat / 256 % 64 = 0 ∨ 32 < v.toNat / 256 % 64 then .reject .length
    else .command (transformInstr ver (decide (v.toNat / 64 % 2 = 1)) (BitVec.ofNat 6 (v.toNat / 256))) := by
  simp only [decodeOperands, opField_eq_iff, ne_eq, lenField_eq_iff, lenLegal_lenField, ite_not, aiField_eq,
    ← lenField_eq_ofNat, BitVec.ofNat_eq_ofNat, BitVec.toNat_ofNat]

/-- Settles O4: each test of the decoder is its arithmetic reading, and at a legal VER the rows are those of the
version it names. -/
theorem decoderChecksInOrder : Obligations.DecoderChecksInOrder := by
  intro v busy
  have hcode : v.toNat / 16 % 4 = 0 ∨ v.toNat / 16 % 4 = 1 ∨ v.toNat / 16 % 4 = 2 ∨ v.toNat / 16 % 4 = 3 := by omega
  simp only [decode, decodeWord, ne_eq, reservedHigh_eq_iff, reservedBit7_eq, decide_eq_true_iff,
    ← Nat.mod_two_ne_zero, opField_toNat, opField_eq_iff, nopUnused_eq_iff, BitVec.ofNat_eq_ofNat, BitVec.toNat_ofNat,
    Nat.zero_mod, versionOf_verField]
  obtain h | h | h | h := hcode <;> simp [h, decodeOperands_eq, deriveInstr, transformInstr]

end Sys2Proof

/-! PROOF. A `waitdone` with no command running and DONE clear (30_encoding.md R55): no step sets DONE, and the poll stays
the host's next line. -/

namespace Sys2Proof.Machine

/-- The value `waitdone` awaits is read exactly when BUSY is 0 and DONE is 1 (30_encoding.md R55). -/
theorem waitdone_ends_iff (e : Engine) :
    readValue (offsetOf .status) e &&& 3 = 2 ↔ e.status.busy = false ∧ e.status.done = true := by
  have hmask : (statusWord e.status &&& 3).toNat = (statusWord e.status).toNat % 4 := by
    rw [BitVec.toNat_and]
    exact Nat.and_two_pow_sub_one_eq_mod _ 2
  rw [readValue_offsetOf, readReg, ← BitVec.toNat_inj, hmask, statusWord_toNat]
  cases e.status.busy <;> cases e.status.done <;> simp <;> omega

theorem sequencerTurn_of_idle (vc : Version → RoundConfig) {s : State} (hidle : s.engine.seq = .idle) :
    sequencerTurn vc s = s := by
  simp only [sequencerTurn, hidle]

/-- The step of a `waitdone`: the poll goes on once BUSY is 0 and DONE is 1, and otherwise stays. -/
theorem step_of_waitdone {vc : Version → RoundConfig} {s : State} {rest : List HostLine} (hturn : turnOf s = .host)
    (hs : s.script = waitdone ++ rest) :
    stepWith vc s = .next { afterAccess s (busRead (offsetOf .status) s.engine) with
      script := if s.engine.status.busy = false ∧ s.engine.status.done = true then rest else s.script } := by
  rw [step_of_poll (rest := rest) hturn hs]
  simp only [waitdone_ends_iff]

/-- No command runs and DONE is clear, so nothing is left that sets DONE. -/
def Engine.NeverDone (e : Engine) : Prop := e.seq = .idle ∧ e.status.done = false

/-- Every step stays at a `waitdone` that nothing will end. -/
theorem step_of_endless_waitdone (vc : Version → RoundConfig) {s : State} {rest : List HostLine}
    (hnever : s.engine.NeverDone) (hs : s.script = waitdone ++ rest) :
    ∃ t, stepWith vc s = .next t ∧ t.engine.NeverDone ∧ t.script = s.script := by
  obtain ⟨hseq, hdone⟩ := hnever
  cases hturn : turnOf s with
  | host =>
    refine ⟨_, step_of_waitdone hturn hs, ⟨hseq, hdone⟩, if_neg ?_⟩
    simp [hdone]
  | sequencer =>
    refine ⟨_, step_of_sequencer hturn, ?_, sequencerTurn_script _ _⟩
    rw [sequencerTurn_of_idle vc (s := { s with turns := s.turns.tail }) hseq]
    exact ⟨hseq, hdone⟩
  | reset => exact ⟨_, step_of_reset hturn, ⟨rfl, rfl⟩, rfl⟩

/-- Settles O57: every step of every agent stays at the poll. -/
theorem waitdoneAfterARejectionNeverEnds : Obligations.WaitdoneAfterARejectionNeverEnds := by
  intro vc s rest hseq hdone hs n
  obtain ⟨u, hu, -, hscript⟩ := exists_reaches_of_step (vc := vc)
    (p := fun u => u.engine.NeverDone ∧ u.script = s.script)
    (fun u ⟨hnever, hscript⟩ => by
      obtain ⟨t, ht, hnever', hkept⟩ := step_of_endless_waitdone vc hnever (hscript.trans hs)
      exact ⟨t, ht, hnever', hkept.trans hscript⟩) n ⟨⟨hseq, hdone⟩, rfl⟩
  exact ⟨u, hu, hscript⟩

end Sys2Proof.Machine

/-! PROOF. The keystream script (30_encoding.md R55, 43_driver.md R105): an accepted DERIVE or TRANSFORM computes
derive_block in the sequencer's turns, and the script's lines are tied to the engine phase by phase. -/

namespace Sys2Proof.Machine

/-! ### A running command (43_driver.md R97 to R101) -/

/-- How many rounds are done at a position of the sequencer (10_state.md R16). -/
def SeqPos.roundsDone : SeqPos → Nat
  | .idle => 0
  | .run i => i.val
  | .emit => 16

@[simp] theorem roundsDone_seqAfter (i : Fin 16) : (seqAfter i).roundsDone = i.val + 1 := by
  rw [seqAfter_eq]
  split <;> simp only [SeqPos.roundsDone]
  omega

/-- The engine runs a command of version `ver` that started from `start`: W and A are those of the rounds done. -/
structure Engine.Runs (vc : Version → RoundConfig) (ver : Version) (start : RoundState) (e : Engine) : Prop where
  busy : e.status.busy = true
  running : e.seq ≠ .idle
  latched : e.latch.ver = ver
  rounds : RoundState.mk e.w e.a = roundsBelow (buildWith vc) ver start e.seq.roundsDone

/-- The engine is idle and OUT holds this block. -/
structure Engine.Emitted (block : WordFile) (e : Engine) : Prop where
  seq : e.seq = .idle
  out : e.out = block

/-- An accept starts from the key and the counter (43_driver.md R94 to R96). -/
theorem accept_runs (vc : Version → RoundConfig) (op : Operation) (ver : Version) (ai : Bool) (len : BitVec 6)
    (e : Engine) :
    (accept op ver ai len e).Runs vc ver (startState (buildWith vc) e.key e.ctrHi e.ctrLo) where
  busy := rfl
  running := by simp
  latched := rfl
  rounds := rfl

theorem roundStep_runs {vc : Version → RoundConfig} {ver : Version} {start : RoundState} {i : Fin 16} {e : Engine}
    (hrun : e.seq = .run i) (h : e.Runs vc ver start) : (roundStep vc i e).Runs vc ver start where
  busy := h.busy
  running := seqAfter_ne_idle i
  latched := h.latched
  rounds := by
    have hrounds : RoundState.mk e.w e.a = roundsBelow (buildWith vc) ver start i.val := by
      rw [h.rounds, hrun, SeqPos.roundsDone]
    rw [roundStep_seq, roundsDone_seqAfter, roundsBelow_succ, ← hrounds, Fin.ofNat_val_eq_self]
    simp only [roundStep, h.latched]

/-- A completion emits the W of the 16 rounds (43_driver.md R98). -/
theorem complete_emitted {vc : Version → RoundConfig} {ver : Version} {start : RoundState} (n : Nat) {e : Engine}
    (hemit : e.seq = .emit) (h : e.Runs vc ver start) :
    (complete n e).Emitted (roundsBelow (buildWith vc) ver start 16).w where
  seq := rfl
  out := by
    have hw := congrArg RoundState.w h.rounds
    rwa [hemit] at hw

/-- A sequencer's turn takes a running command on by a round, or completes it. -/
theorem sequencerTurn_of_runs {vc : Version → RoundConfig} {ver : Version} {start : RoundState} {s : State}
    (h : s.engine.Runs vc ver start) : (sequencerTurn vc s).engine.Runs vc ver start ∨
      (sequencerTurn vc s).engine.Emitted (roundsBelow (buildWith vc) ver start 16).w := by
  obtain ⟨hidle, -⟩ | ⟨i, hrun, he⟩ | ⟨hemit, he⟩ := sequencerTurn_cases vc s
  · exact absurd hidle h.running
  · rw [he]
    exact .inl (roundStep_runs hrun h)
  · rw [he]
    exact .inr (complete_emitted _ hemit h)

/-- How many turns of the sequencer a command still takes (10_state.md R16). -/
def SeqPos.turnsLeft : SeqPos → Nat
  | .idle => 0
  | .run i => 17 - i.val
  | .emit => 1

theorem turnsLeft_seqAfter (i : Fin 16) : (seqAfter i).turnsLeft + 1 = (SeqPos.run i).turnsLeft := by
  rw [seqAfter_eq]
  split <;> simp only [SeqPos.turnsLeft] <;> omega

theorem turnsLeft_pos {q : SeqPos} (hrun : q ≠ .idle) : 0 < q.turnsLeft := by
  cases q with
  | idle => exact absurd rfl hrun
  | run i => exact Nat.sub_pos_of_lt (i.isLt.trans (by decide))
  | emit => exact Nat.one_pos

/-- A running command is complete when the sequencer has had the turns that are left. -/
theorem reaches_completion {vc : Version → RoundConfig} {n : Nat} {s : State} {ts : List Turn}
    (hrun : s.engine.seq ≠ .idle) (hleft : s.engine.seq.turnsLeft = n)
    (hturns : s.turns = List.replicate n .sequencer ++ ts) :
    ∃ u, Reaches vc n s u ∧ u.turns = ts ∧ u.script = s.script ∧
      u.engine.status.busy = false ∧ u.engine.status.done = true := by
  induction n generalizing s with
  | zero => exact absurd hleft (turnsLeft_pos hrun).ne'
  | succ n ih =>
    have hstep := step_of_sequencer (vc := vc) (s := s) (by simp [turnOf, hturns, List.replicate_succ])
    have htail : s.turns.tail = List.replicate n .sequencer ++ ts := by simp [hturns, List.replicate_succ]
    obtain ⟨hidle, -⟩ | ⟨i, hseq, he⟩ | ⟨hseq, he⟩ := sequencerTurn_cases vc { s with turns := s.turns.tail }
    · exact absurd hidle hrun
    · dsimp only at hseq
      rw [he] at hstep
      rw [hseq, ← turnsLeft_seqAfter] at hleft
      obtain ⟨u, hu, h⟩ := ih (s := { s with turns := s.turns.tail, engine := roundStep vc i s.engine })
        (seqAfter_ne_idle i) (Nat.succ.inj hleft) htail
      exact ⟨u, ⟨_, hstep, hu⟩, h⟩
    · dsimp only at hseq
      rw [he] at hstep
      obtain rfl : n = 0 := by simpa [hseq, SeqPos.turnsLeft] using hleft.symm
      exact ⟨_, ⟨_, hstep, rfl⟩, htail, rfl, rfl, rfl⟩

/-! ### The lines of the script (30_encoding.md R55) -/

/-- The step of a `cmd DERIVE` line on an idle engine is its accept (43_driver.md R92, R103). -/
theorem step_of_cmd_derive {vc : Version → RoundConfig} {s : State} {ver : Version} {ai : Bool} {rest : List HostLine}
    (hturn : turnOf s = .host) (hidle : s.engine.status.busy = false) (hs : s.script = cmd (.derive ver) ai 0 :: rest) :
    stepWith vc s = .next { afterAccess s ⟨false, none⟩ with engine := accept .derive ver ai 0 s.engine } := by
  have hdecode : decode (cmdWord (.derive ver) ai 0) s.engine.status.busy = .command (deriveInstr ver ai) := by
    rw [hidle]
    exact decodeWord_derive ver ai
  rw [step_of_write hturn hs, if_pos rfl, hdecode, writeResponse_offsetOf]
  have hissue := issue_of_idle .derive ver ai 0 (s := afterAccess s ⟨false, none⟩) hidle
  cases ver <;> exact congrArg Host.Outcome.next hissue

theorem getout_eq : getout = List.ofFn fun j => HostLine.rd (offsetOf (.out j)) := rfl

/-- What the host hears when it reads a whole block from OUT, in the order of the words. -/
def blockAnswers (block : WordFile) : List BusResponse := List.ofFn fun j => ⟨false, some (wordAt block j)⟩

/-- The host reads its lines one by one when it has all the turns. -/
theorem reaches_of_reads {vc : Version → RoundConfig} {offs : List (BitVec 8)} {s : State}
    (hturns : s.turns = List.replicate offs.length .host) (hs : s.script = offs.map .rd) :
    ∃ u, Reaches vc offs.length s u ∧ u.script = [] := by
  induction offs generalizing s with
  | nil => exact ⟨s, rfl, hs⟩
  | cons off offs ih =>
    have hturn : turnOf s = .host := by simp [turnOf, hturns, List.replicate_succ]
    obtain ⟨u, hu, hend⟩ := ih (s := afterAccess s (busRead off s.engine))
      (by simp [hturns, List.replicate_succ]) (by simp [hs])
    exact ⟨u, ⟨_, step_of_read hturn hs, hu⟩, hend⟩

/-- A line of `setctr` leaves BUSY alone. -/
theorem step_of_setctr_line (vc : Version → RoundConfig) {s : State} {r : Reg} {v : Word} {rest : List HostLine}
    (hr : r = .ctrHi ∨ r = .ctrLo) (hturn : turnOf s = .host) (hs : s.script = .wr (offsetOf r) v :: rest) :
    ∃ t, stepWith vc s = .next t ∧ t.turns = s.turns.tail ∧ t.script = rest ∧
      t.engine.status.busy = s.engine.status.busy := by
  have hne : r ≠ .cmd := by rintro rfl; simp at hr
  refine ⟨_, step_of_write_reg hne hturn hs, rfl, congrArg List.tail hs, ?_⟩
  obtain rfl | rfl := hr <;> rfl

/-- The host sets the counter and starts the command when it has the first three turns. -/
theorem reaches_command {vc : Version → RoundConfig} {s : State} {ver : Version} {c : BitVec 64} {ts : List Turn}
    (hidle : s.engine.status.busy = false) (hs : s.script = keystream ver c)
    (hturns : s.turns = .host :: .host :: .host :: ts) :
    ∃ u, Reaches vc 3 s u ∧ u.turns = ts ∧ u.script = waitdone ++ getout ∧ u.engine.seq = .run 0 := by
  obtain ⟨s₁, hstep₁, hturns₁, hs₁, hidle₁⟩ :=
    step_of_setctr_line vc (r := .ctrHi) (.inl rfl) (by simp [turnOf, hturns]) hs
  rw [hturns, List.tail_cons] at hturns₁
  obtain ⟨s₂, hstep₂, hturns₂, hs₂, hidle₂⟩ :=
    step_of_setctr_line vc (r := .ctrLo) (.inr rfl) (by simp [turnOf, hturns₁]) hs₁
  rw [hturns₁, List.tail_cons] at hturns₂
  have hstep₃ := step_of_cmd_derive (vc := vc) (by simp [turnOf, hturns₂])
    (hidle₂.trans (hidle₁.trans hidle)) hs₂
  exact ⟨_, ⟨s₁, hstep₁, s₂, hstep₂, _, hstep₃, rfl⟩, congrArg List.tail hturns₂, congrArg List.tail hs₂, rfl⟩

/-- The host's accesses up to the command, the sequencer's turns, and the poll and the reads. -/
def keystreamTurns : List Turn :=
  List.replicate 3 .host ++ (List.replicate 17 .sequencer ++ List.replicate 9 .host)

/-- The script ends when the sequencer has its turns between the command and the poll. -/
theorem keystream_ends (vc : Version → RoundConfig) {s : State} {ver : Version} {c : BitVec 64}
    (hidle : s.engine.status.busy = false) (hs : s.script = keystream ver c) (hturns : s.turns = keystreamTurns) :
    ∃ u, Reaches vc keystreamTurns.length s u ∧ u.script = [] := by
  obtain ⟨t, ht, htturns, htscript, hseq⟩ := reaches_command (vc := vc) hidle hs hturns
  obtain ⟨u, hu, huturns, huscript, hbusy, hdone⟩ := reaches_completion (vc := vc) (n := 17)
    (by simp [hseq]) (by simp [hseq, SeqPos.turnsLeft]) htturns
  have hpoll := step_of_waitdone (vc := vc) (s := u) (by simp [turnOf, huturns, List.replicate_succ])
    (huscript.trans htscript)
  rw [if_pos ⟨hbusy, hdone⟩] at hpoll
  obtain ⟨v, hv, hend⟩ := reaches_of_reads (vc := vc) (offs := List.ofFn fun j => offsetOf (.out j))
    (s := { afterAccess u (busRead (offsetOf .status) u.engine) with script := getout })
    (congrArg List.tail huturns) rfl
  have hlength : keystreamTurns.length = 3 + (17 + (8 + 1)) := rfl
  rw [hlength]
  exact ⟨v, reaches_add.mpr ⟨t, ht, reaches_add.mpr ⟨u, hu, _, hpoll, hv⟩⟩, hend⟩

/-! ### The phases of the script -/

/-- The engine runs no command and holds this key. -/
structure Engine.Ready (key : WordFile) (e : Engine) : Prop where
  busy : e.status.busy = false
  seq : e.seq = .idle
  key : e.key = key

theorem Engine.Ready.writeReg {key : WordFile} {e : Engine} {r : Reg} (v : Word) (h : e.Ready key)
    (hr : r = .ctrHi ∨ r = .ctrLo) : (writeReg e v r).Ready key := by
  obtain rfl | rfl := hr <;> exact ⟨h.busy, h.seq, h.key⟩

/-- How far the keystream script has come, by the line that is next: the engine and the last answers at each line. -/
inductive KeystreamPhase (vc : Version → RoundConfig) (key : WordFile) (ver : Version) (c : BitVec 64)
    (script : List HostLine) (e : Engine) (heard : List BusResponse) : Prop
  | counterHigh (next : script = keystream ver c) (ready : e.Ready key)
  | counterLow (next : script = (keystream ver c).drop 1) (ready : e.Ready key)
      (hi : e.ctrHi = c.extractLsb' 32 32)
  | command (next : script = (keystream ver c).drop 2) (ready : e.Ready key)
      (hi : e.ctrHi = c.extractLsb' 32 32) (lo : e.ctrLo = c.extractLsb' 0 32)
  | waiting (next : script = waitdone ++ getout)
      (due : e.Runs vc ver (startState (buildWith vc) key (c.extractLsb' 32 32) (c.extractLsb' 0 32)) ∨
        e.Emitted (deriveBlock (buildWith vc) key c ver))
  | reading (j : Nat) (hj : j ≤ 8) (next : script = getout.drop j)
      (emitted : e.Emitted (deriveBlock (buildWith vc) key c ver))
      (answers : heard.take j = ((blockAnswers (deriveBlock (buildWith vc) key c ver)).take j).reverse)

/-- A state in a phase of the script. -/
def State.InKeystream (vc : Version → RoundConfig) (key : WordFile) (ver : Version) (c : BitVec 64) (s : State) : Prop :=
  KeystreamPhase vc key ver c s.script s.engine s.heard

section
variable {vc : Version → RoundConfig} {key : WordFile} {ver : Version} {c : BitVec 64} {s t : State}

/-- A turn of the sequencer stays in the phase. -/
theorem State.InKeystream.sequencerTurn (h : s.InKeystream vc key ver c) :
    (sequencerTurn vc s).InKeystream vc key ver c := by
  by_cases hidle : s.engine.seq = .idle
  · rwa [sequencerTurn_of_idle vc hidle]
  · cases h with
    | counterHigh _ ready | counterLow _ ready | command _ ready => exact absurd ready.seq hidle
    | reading _ _ _ emitted => exact absurd emitted.seq hidle
    | waiting next due =>
      obtain hruns | hemitted := due
      · exact .waiting (by rw [sequencerTurn_script, next]) (sequencerTurn_of_runs hruns)
      · exact absurd hemitted.seq hidle

/-- The command starts from the key and the counter the script has written. -/
theorem accept_runs_of_ready (hready : s.engine.Ready key) (hhi : s.engine.ctrHi = c.extractLsb' 32 32)
    (hlo : s.engine.ctrLo = c.extractLsb' 0 32) :
    (accept .derive ver false 0 s.engine).Runs vc ver
      (startState (buildWith vc) key (c.extractLsb' 32 32) (c.extractLsb' 0 32)) := by
  rw [← hready.key, ← hhi, ← hlo]
  exact accept_runs vc .derive ver false 0 s.engine

/-- A host turn at the poll reads on when the block is there, and otherwise waits on. -/
theorem inKeystream_of_waiting (hturn : turnOf s = .host) (hstep : stepWith vc s = .next t)
    (next : s.script = waitdone ++ getout)
    (due : s.engine.Runs vc ver (startState (buildWith vc) key (c.extractLsb' 32 32) (c.extractLsb' 0 32)) ∨
      s.engine.Emitted (deriveBlock (buildWith vc) key c ver)) : t.InKeystream vc key ver c := by
  cases (step_of_waitdone hturn next).symm.trans hstep
  by_cases hpass : s.engine.status.busy = false ∧ s.engine.status.done = true
  · have hemitted := due.resolve_left fun hruns => by simp [hruns.busy] at hpass
    exact .reading 0 (by omega) (if_pos hpass) hemitted rfl
  · exact .waiting ((if_neg hpass).trans next) due

/-- A host turn at a read of OUT hears the word of the block that stands there. -/
theorem inKeystream_of_reading (hturn : turnOf s = .host) (hstep : stepWith vc s = .next t) {j : Nat} (hj : j < 8)
    (next : s.script = getout.drop j) (emitted : s.engine.Emitted (deriveBlock (buildWith vc) key c ver))
    (answers : s.heard.take j = ((blockAnswers (deriveBlock (buildWith vc) key c ver)).take j).reverse) :
    t.InKeystream vc key ver c := by
  have hline : s.script = .rd (offsetOf (.out ⟨j, hj⟩)) :: getout.drop (j + 1) := by
    rw [next, List.drop_eq_getElem_cons (show j < getout.length from hj)]
    simp only [getout_eq, List.getElem_ofFn]
  cases (step_of_read_reg hturn hline).symm.trans hstep
  refine .reading (j + 1) hj (by simp [hline]) emitted ?_
  have hword : (blockAnswers (deriveBlock (buildWith vc) key c ver))[j]? =
      some ⟨false, some (readReg s.engine (.out ⟨j, hj⟩))⟩ := by
    rw [blockAnswers, List.getElem?_ofFn, dif_pos hj, readReg, emitted.out]
  rw [afterAccess_heard, List.take_succ_cons, answers, List.take_add_one, hword, List.reverse_append]
  rfl

/-- A host turn goes on in the script, or stays at the poll or the end of the script. -/
theorem State.InKeystream.host (hturn : turnOf s = .host) (hstep : stepWith vc s = .next t)
    (h : s.InKeystream vc key ver c) : t.InKeystream vc key ver c := by
  cases h with
  | counterHigh next ready =>
    cases (step_of_write_reg (r := .ctrHi) (by simp) hturn next).symm.trans hstep
    exact .counterLow (congrArg List.tail next) (ready.writeReg _ (.inl rfl)) rfl
  | counterLow next ready hi =>
    cases (step_of_write_reg (r := .ctrLo) (by simp) hturn next).symm.trans hstep
    exact .command (congrArg List.tail next) (ready.writeReg _ (.inr rfl)) hi rfl
  | command next ready hi lo =>
    cases (step_of_cmd_derive hturn ready.busy next).symm.trans hstep
    exact .waiting (congrArg List.tail next) (.inl (accept_runs_of_ready ready hi lo))
  | waiting next due => exact inKeystream_of_waiting hturn hstep next due
  | reading j hj next emitted answers =>
    obtain hlt | rfl := Nat.lt_or_eq_of_le hj
    · exact inKeystream_of_reading hturn hstep hlt next emitted answers
    · cases (step_of_no_line hturn next).symm.trans hstep
      exact .reading 8 hj next emitted answers

/-- Every step but a reset stays in the script. -/
theorem State.InKeystream.step (hstep : stepWith vc s = .next t) (hreset : turnOf s ≠ .reset)
    (h : s.InKeystream vc key ver c) : t.InKeystream vc key ver c := by
  cases hturn : turnOf s with
  | host => exact h.host hturn hstep
  | reset => exact absurd hturn hreset
  | sequencer =>
    cases (step_of_sequencer hturn).symm.trans hstep
    exact State.InKeystream.sequencerTurn (s := { s with turns := s.turns.tail }) h

/-- A run without reset stays in the script. -/
theorem State.InKeystream.reaches {n : Nat} (hrun : Reaches vc n s t) (hreset : Turn.reset ∉ s.turns)
    (h : s.InKeystream vc key ver c) : t.InKeystream vc key ver c := by
  obtain ⟨u, hu, -, hphase⟩ := exists_reaches_of_step (vc := vc)
    (p := fun u => Turn.reset ∉ u.turns ∧ u.InKeystream vc key ver c)
    (fun u ⟨hnone, hu⟩ => by
      obtain ⟨v, hv, hturns, -⟩ := stepWith_next vc u
      exact ⟨v, hv, fun hr => hnone (List.mem_of_mem_tail (hturns ▸ hr)),
        hu.step hv fun hr => hnone (reset_mem_of_turnOf hr)⟩) n ⟨hreset, h⟩
  exact reaches_unique hu hrun ▸ hphase

/-- At the end of the script the last eight answers are the words of OUT. -/
theorem State.InKeystream.heard_of_end (h : s.InKeystream vc key ver c) (hend : s.script = []) :
    s.heard.take 8 = (blockAnswers (deriveBlock (buildWith vc) key c ver)).reverse := by
  cases h with
  | counterHigh next | counterLow next | command next | waiting next => cases hend.symm.trans next
  | reading j hj next emitted answers =>
    have hlen : getout.length ≤ j := List.drop_eq_nil_iff.mp (next.symm.trans hend)
    obtain rfl : j = 8 := hj.antisymm hlen
    exact answers

end

/-- Settles O59: the phases hold along every run without reset, and `keystreamTurns` is an interleaving that ends. -/
theorem keystreamScriptReturnsTheBlock : Obligations.KeystreamScriptReturnsTheBlock := by
  intro vc s ver c hinv hidle hs
  have hseq : s.engine.seq = .idle := by
    by_contra hrun
    simp [hinv.busy_iff.mpr hrun] at hidle
  have hstart : s.InKeystream vc s.engine.key ver c := .counterHigh hs ⟨hidle, hseq, rfl⟩
  refine ⟨fun hreset n u hu => (hstart.reaches hu hreset).heard_of_end, keystreamTurns, by decide, ?_⟩
  exact keystream_ends vc (s := { s with turns := keystreamTurns }) hidle hs rfl

end Sys2Proof.Machine

/-! PROOF. The primitives (40_primitives.md R56 to R65): where each bit of a rotation comes from, the reduction as a
remainder, and the byte view of a word file as arithmetic. -/

namespace Sys2Proof.Machine

/-! ### Rotations (40_primitives.md R56, R57) -/

/-- Bit `k` of a right rotation is bit `k + s` of the word, counted mod 32 (40_primitives.md R56). -/
theorem getLsbD_rotr (x : Word) (s : BitVec 5) {k : Nat} (hk : k < 32) :
    (rotr x s).getLsbD k = x.getLsbD ((k + s.toNat) % 32) := by
  have hs : s.toNat < 32 := s.isLt
  rw [rotr_eq, BitVec.getLsbD_rotateRight, Nat.mod_eq_of_lt hs, Bool.cond_decide]
  split
  · rw [Nat.mod_eq_of_lt (by omega), Nat.add_comm]
  · rw [decide_eq_true hk, Bool.true_and, show (k + s.toNat) % 32 = k - (32 - s.toNat) by omega]

/-- Bit `k` of a left rotation is bit `k - s` of the word, counted mod 32 (40_primitives.md R57). -/
theorem getLsbD_rotl (x : Word) (s : BitVec 5) {k : Nat} (hk : k < 32) :
    (rotl x s).getLsbD k = x.getLsbD ((k + 32 - s.toNat) % 32) := by
  have hs : s.toNat < 32 := s.isLt
  rw [rotl_eq, BitVec.getLsbD_rotateLeft, Nat.mod_eq_of_lt hs, Bool.cond_decide]
  split
  · rw [show (k + 32 - s.toNat) % 32 = 32 - s.toNat + k by omega]
  · rw [decide_eq_true hk, Bool.true_and, show (k + 32 - s.toNat) % 32 = k - s.toNat by omega]

/-- A left rotation is the right rotation by the rest (40_primitives.md R57). -/
theorem rotl_eq_rotr (x : Word) {s : BitVec 5} (hs : 1 ≤ s.toNat) :
    rotl x s = rotr x (BitVec.ofNat 5 (32 - s.toNat)) := by
  have hrest : (BitVec.ofNat 5 (32 - s.toNat)).toNat = 32 - s.toNat := by
    rw [BitVec.toNat_ofNat]; omega
  apply BitVec.eq_of_getLsbD_eq
  intro k hk
  rw [getLsbD_rotl x s hk, getLsbD_rotr x _ hk, hrest, Nat.add_sub_assoc s.isLt.le]

/-- The set bits of a word as a set of places. -/
theorem mem_filter_getLsbD_iff {x : Word} {k : Nat} :
    k ∈ (Finset.range 32).filter (fun k => x.getLsbD k = true) ↔ k < 32 ∧ x.getLsbD k = true := by
  rw [Finset.mem_filter, Finset.mem_range]

/-- A rotation keeps the number of set bits: it takes each bit of the word once (40_primitives.md R56). -/
theorem card_bits_rotr (x : Word) (s : BitVec 5) :
    ((Finset.range 32).filter fun k => (rotr x s).getLsbD k = true).card =
      ((Finset.range 32).filter fun k => x.getLsbD k = true).card := by
  have hs : s.toNat < 32 := s.isLt
  have hmod (k : Nat) : k % 32 < 32 := Nat.mod_lt k (by decide)
  have hback (k : Nat) (hk : k < 32) : ((k + 32 - s.toNat) % 32 + s.toNat) % 32 = k := by omega
  have hforth (k : Nat) (hk : k < 32) : ((k + s.toNat) % 32 + 32 - s.toNat) % 32 = k := by omega
  apply Finset.card_nbij' (fun k => (k + s.toNat) % 32) (fun k => (k + 32 - s.toNat) % 32)
  case hi =>
    intro k hk
    obtain ⟨hlt, hbit⟩ := mem_filter_getLsbD_iff.mp hk
    exact mem_filter_getLsbD_iff.mpr ⟨hmod _, (getLsbD_rotr x s hlt).symm.trans hbit⟩
  case hj =>
    intro k hk
    obtain ⟨hlt, hbit⟩ := mem_filter_getLsbD_iff.mp hk
    exact mem_filter_getLsbD_iff.mpr ⟨hmod _, by rw [getLsbD_rotr x s (hmod _), hback k hlt, hbit]⟩
  case left_inv =>
    intro k hk
    exact hforth k (mem_filter_getLsbD_iff.mp hk).1
  case right_inv =>
    intro k hk
    exact hback k (mem_filter_getLsbD_iff.mp hk).1

/-- A word of equal bits is fixed by every rotation (40_primitives.md R56). -/
theorem rotr_of_const {x : Word} {b : Bool} (hx : ∀ k, k < 32 → x.getLsbD k = b) (s : BitVec 5) : rotr x s = x := by
  apply BitVec.eq_of_getLsbD_eq
  intro k hk
  rw [getLsbD_rotr x s hk, hx _ (Nat.mod_lt _ (by decide)), hx k hk]

/-- Settles O22: both rotations read bits of the word by their place mod 32, and the rest follows bit by bit. -/
theorem rotationsMoveEachBit : Obligations.RotationsMoveEachBit := by
  refine ⟨fun x s hs => ⟨fun k hk => ⟨getLsbD_rotr x s hk, getLsbD_rotl x s hk⟩, rotl_eq_rotr x hs,
    card_bits_rotr x s, ?ones, ?zero⟩, by decide, by decide⟩
  case ones => exact rotr_of_const (b := true) (by decide) s
  case zero => exact rotr_of_const (b := false) (by decide) s

/-! ### Reduction (40_primitives.md R62) -/

/-- Settles O23: the reductions are the remainders, and a remainder mod fp is below fp. -/
theorem reductionIsTheRemainder : Obligations.ReductionIsTheRemainder := by
  refine ⟨fun x => ⟨red_fp_toNat x, red_w32_toNat x, ?_⟩, by decide, by decide, by decide, by decide, by decide⟩
  rw [red_fp_toNat]
  exact Nat.le_of_lt_succ (Nat.mod_lt x (by decide))

/-! ### Bytes and words (40_primitives.md R64, R65) -/

/-- Byte `p` of a word file as arithmetic on its word's number (40_primitives.md R64). -/
theorem byteAt_toNat (x : WordFile) (p : Fin 32) :
    (byteAt x p).toNat = (wordAt x (byteWord p)).toNat / 2 ^ (24 - 8 * (p.val % 4)) % 256 :=
  extractLsb'_toNat_div _ _ 8

/-- Four bytes make a word with the first byte highest (40_primitives.md R65). -/
theorem wordOfBytes_toNat (b : Fin 32 → Byte) (j : Fin 8) :
    (wordOfBytes b j).toNat = (b ⟨4 * j.val, by omega⟩).toNat * 2 ^ 24 +
      (b ⟨4 * j.val + 1, by omega⟩).toNat * 2 ^ 16 + (b ⟨4 * j.val + 2, by omega⟩).toNat * 2 ^ 8 +
      (b ⟨4 * j.val + 3, by omega⟩).toNat := by
  simp only [wordOfBytes, append_toNat]
  ring

/-- Settles O24: the byte is a field of its word, and a word of `wordsOf` is the concatenation of its four bytes. -/
theorem bytesAreBigEndianInWords : Obligations.BytesAreBigEndianInWords :=
  ⟨byteAt_toNat, fun b j => by rw [wordsOf, wordAt_fileOf, wordOfBytes_toNat]⟩

end Sys2Proof.Machine

/-! PROOF. The ARX round (41_arx_round.md): the six values that steps 1 to 7 store, as one function of W and the round's
two constants. The formulas, the parameters a round does not read and the zero fixed point follow from these values. -/

namespace Sys2Proof.Machine

/-! ### The operands of a round (41_arx_round.md R70, R71) -/

/-- A selection's words and constants are different ones, so no step overwrites what another step stored. -/
structure Selection.Distinct (q : Selection) : Prop where
  b_ne_a : q.b ≠ q.a
  c_ne_a : q.c ≠ q.a
  c_ne_b : q.c ≠ q.b
  d_ne_a : q.d ≠ q.a
  d_ne_b : q.d ≠ q.b
  d_ne_c : q.d ≠ q.c
  c1_ne_c0 : q.c1 ≠ q.c0

theorem select_distinct (i : Fin 16) : (select i).Distinct := by
  constructor <;> revert i <;> decide

/-! ### The values the steps store -/

/-- What steps 1 to 7 store: the words a to d of W and the constants c0 and c1. -/
structure StepValues where
  wa : Word
  wb : Word
  wc : Word
  wd : Word
  k0 : Word
  k1 : Word

/-- The values the steps store in a round that starts from `r` (41_arx_round.md R72 to R78). -/
def RoundState.stepValues (cfg : RoundConfig) (q : Selection) (r : RoundState) : StepValues :=
  let wa := red ((wordAt r.w q.a).toNat + (wordAt r.a q.c0).toNat + (rotr (wordAt r.w q.a) q.shift).toNat) cfg.mWord
  let k1 := feedback3 cfg.fb3 (wordAt r.a q.c1 ^^^ red (sumWords (putWord r.w q.a wa)) cfg.mSum)
  let wb := red ((wordAt r.w q.b).toNat + k1.toNat + (rotl (wordAt r.w q.b) q.shift).toNat) cfg.mWord
  let k0 := wordAt r.a q.c0 ^^^ red (wb.toNat + (rotr wa q.shift').toNat) cfg.mFb5
  let wc := mixTerms cfg.mix6 cfg.mWord (k0 ^^^ wordAt r.w q.c) (k1 ^^^ wordAt r.w q.d)
  let wd := mixTerms cfg.mix7 cfg.mWord (k0 ^^^ wordAt r.w q.d) (k1 ^^^ wc)
  ⟨wa, wb, wc, wd, k0, k1⟩

section
variable {q : Selection} (hq : q.Distinct) (cfg : RoundConfig) (r : RoundState)
include hq

/-- Steps 1 to 7 store their values in the words a to d and leave the rest of W. The places differ, so the order of the
writes, last one first in `hlast`, does not matter. -/
theorem wordAt_arxSteps_w (j : Fin 8) : wordAt (arxSteps cfg q r).w j =
    if j = q.a then (r.stepValues cfg q).wa else if j = q.b then (r.stepValues cfg q).wb
    else if j = q.c then (r.stepValues cfg q).wc else if j = q.d then (r.stepValues cfg q).wd
    else wordAt r.w j := by
  obtain ⟨hba, hca, hcb, hda, hdb, hdc, h10⟩ := hq
  have hlast : wordAt (arxSteps cfg q r).w j =
      if j = q.d then (r.stepValues cfg q).wd else if j = q.c then (r.stepValues cfg q).wc
      else if j = q.b then (r.stepValues cfg q).wb else if j = q.a then (r.stepValues cfg q).wa
      else wordAt r.w j := by
    simp only [arxSteps, arxStep1_w, arxStep1_a, arxStep3_w, arxStep3_a, arxStep4_w, arxStep4_a, arxStep5_w, arxStep5_a,
      arxStep6_w, arxStep6_a, arxStep7_w, hba, hba.symm, hca, hcb, hda, hdb, hdc, h10, h10.symm, if_true, if_false]
    rfl
  rw [hlast]
  grind

/-- Steps 1 to 7 store their values in the constants c0 and c1 and leave the rest of A. -/
theorem wordAt_arxSteps_a (j : Fin 8) : wordAt (arxSteps cfg q r).a j =
    if j = q.c0 then (r.stepValues cfg q).k0 else if j = q.c1 then (r.stepValues cfg q).k1
    else wordAt r.a j := by
  simp only [arxSteps, arxStep1_w, arxStep1_a, arxStep3_w, arxStep3_a, arxStep4_w, arxStep4_a, arxStep5_a, arxStep6_a,
    arxStep7_a, hq.b_ne_a, hq.b_ne_a.symm, hq.c1_ne_c0.symm, if_true, if_false]
  rfl

end

/-! ### The formulas as the rules write them (41_arx_round.md R72 to R78) -/

/-- The reduction as a remainder, with the modulus written out (40_primitives.md R62). -/
theorem red_eq_ofNat_mod (x : Nat) (m : Modulus) :
    red x m = BitVec.ofNat 32 (x % match m with | .fp => 2 ^ 32 - 5 | .w32 => 2 ^ 32) := by
  cases m with
  | fp => rfl
  | w32 => exact BitVec.eq_of_toNat_eq (by simp [red])

/-- The exact sum of the eight words as a sum over their numbers (41_arx_round.md R73). -/
theorem sumWords_eq_sum (x : WordFile) : sumWords x = ∑ j, (wordAt x j).toNat := by
  rw [Fin.sum_univ_eight]
  rfl

/-- Settles O26: the formulas, from the first to the last, are the stored values, and the steps store just these. -/
theorem arxStepsComputeTheSevenFormulas : Obligations.ArxStepsComputeTheSevenFormulas := by
  intro cfg i r q reduce combine wa sum k1 wb k0 wc wd
  have hreduce (x : Nat) (m : Modulus) : reduce x m = red x m := (red_eq_ofNat_mod x m).symm
  have hcombine (mix : Mix) (x y : Word) : combine mix x y = mixTerms mix cfg.mWord x y := by
    cases mix with
    | add => exact hreduce _ _
    | xor => rfl
  have hwa : wa = (r.stepValues cfg q).wa := by
    simp only [wa, hreduce, ← rotr_eq]
    rfl
  have hsum : sum = red (sumWords (putWord r.w q.a wa)) cfg.mSum := by
    simp only [sum, hreduce, sumWords_eq_sum, wordAt_putWord]
  have hk1 : k1 = (r.stepValues cfg q).k1 := by
    have hfeedback : k1 = feedback3 cfg.fb3 (wordAt r.a q.c1 ^^^ sum) := by
      simp only [k1, hreduce]
      rfl
    rw [hfeedback, hsum, hwa]
    rfl
  have hwb : wb = (r.stepValues cfg q).wb := by
    simp only [wb, hreduce, ← rotl_eq, hk1]
    rfl
  have hk0 : k0 = (r.stepValues cfg q).k0 := by
    simp only [k0, hreduce, ← rotr_eq, hwa, hwb]
    rfl
  have hwc : wc = (r.stepValues cfg q).wc := by
    simp only [wc, hcombine, hk0, hk1]
    rfl
  have hwd : wd = (r.stepValues cfg q).wd := by
    simp only [wd, hcombine, hk0, hk1, hwc]
    rfl
  rw [hwa, hwb, hwc, hwd, hk0, hk1]
  exact ⟨wordAt_arxSteps_w (select_distinct i) cfg r, wordAt_arxSteps_a (select_distinct i) cfg r⟩

/-! ### What the steps read -/

/-- The steps read W and the round's two constants only: from states that agree there they store the same. -/
theorem arxSteps_congr {q : Selection} (hq : q.Distinct) (cfg : RoundConfig) {r r' : RoundState} (hw : r.w = r'.w)
    (h0 : wordAt r.a q.c0 = wordAt r'.a q.c0) (h1 : wordAt r.a q.c1 = wordAt r'.a q.c1) :
    (arxSteps cfg q r).w = (arxSteps cfg q r').w ∧
    wordAt (arxSteps cfg q r).a q.c0 = wordAt (arxSteps cfg q r').a q.c0 ∧
    wordAt (arxSteps cfg q r).a q.c1 = wordAt (arxSteps cfg q r').a q.c1 := by
  have hvalues : r.stepValues cfg q = r'.stepValues cfg q := by simp only [RoundState.stepValues, hw, h0, h1]
  refine ⟨wordFile_ext fun j => ?_, ?_, ?_⟩
  · rw [wordAt_arxSteps_w hq, wordAt_arxSteps_w hq, hvalues, hw]
  · rw [wordAt_arxSteps_a hq, wordAt_arxSteps_a hq, hvalues, h0]
  · rw [wordAt_arxSteps_a hq, wordAt_arxSteps_a hq, hvalues, h1]

/-- Settles O28: round 0 reads A[0] and A[1], which hold the counter (43_driver.md R94). -/
theorem roundZeroStepsNeedNoParameter : Obligations.RoundZeroStepsNeedNoParameter := fun _ _ cfg _ _ _ =>
  arxSteps_congr (select_distinct 0) cfg rfl rfl rfl

/-- Settles O27: no step reads the build's constants, so the steps run on a file of zeros in their place. -/
theorem roundZeroWorkedExample : Obligations.RoundZeroWorkedExample := by
  intro b ver r
  have hzeros (key : WordFile) := arxSteps_congr (select_distinct 0) (versionConfig ver)
    (r := startState b key 0 0) (r' := ⟨key, WordFile.zero⟩) rfl rfl rfl
  obtain ⟨hw, h0, h1⟩ := hzeros _
  refine ⟨h0.trans ?_, h1.trans ?_, hw.trans ?_⟩ <;> cases ver <;> decide

/-! ### Step 3's reduction (41_arx_round.md R82) -/

/-- What is below fp is its own remainder (40_primitives.md R62). -/
theorem red_fp_of_lt {t : Word} (h : t.toNat < 2 ^ 32 - 5) : red t.toNat .fp = t :=
  BitVec.eq_of_toNat_eq ((red_fp_toNat _).trans (Nat.mod_eq_of_lt h))

/-- The two forms of step 3 give the same round when its value is below fp. -/
theorem arxSteps_feedback_eq (cfg : RoundConfig) (q : Selection) (r : RoundState)
    (h : (wordAt r.a q.c1 ^^^ arxSum cfg (arxStep1 cfg q r)).toNat < 2 ^ 32 - 5) :
    arxSteps { cfg with fb3 := .xorOnly } q r = arxSteps { cfg with fb3 := .xorThenReduce } q r := by
  have hstep3 : arxStep3 { cfg with fb3 := .xorOnly } q (arxStep1 cfg q r) =
      arxStep3 { cfg with fb3 := .xorThenReduce } q (arxStep1 cfg q r) :=
    congrArg (fun v => { arxStep1 cfg q r with a := putWord r.a q.c1 v }) (red_fp_of_lt h).symm
  exact congrArg (fun s => arxStep7 cfg q (arxStep6 cfg q (arxStep5 cfg q (arxStep4 cfg q s)))) hstep3

/-- Settles O30: by default V1.0 and V1.1 differ in the form of step 3 alone, and both permute in every round
(40_primitives.md R68). -/
theorem v10AndV11AgreeUnlessFeedbackReduces : Obligations.V10AndV11AgreeUnlessFeedbackReduces := by
  intro b i r hb ht
  have hsteps : arxSteps (versionConfig .v10) (select i) r = arxSteps (versionConfig .v11) (select i) r :=
    arxSteps_feedback_eq (versionConfig .v10) (select i) r ht
  rw [arxRound, arxRound, hb, hsteps]
  rfl

/-! ### Zero as a fixed point (41_arx_round.md R80) -/

@[simp] theorem rotr_zero (s : BitVec 5) : rotr 0#32 s = 0#32 := by simp [rotr]

@[simp] theorem rotl_zero (s : BitVec 5) : rotl 0#32 s = 0#32 := by simp [rotl]

@[simp] theorem feedback3_zero (fb : Feedback) : feedback3 fb 0#32 = 0#32 := by
  cases fb with
  | xorOnly => rfl
  | xorThenReduce => exact red_zero .fp

@[simp] theorem mixTerms_zero (mix : Mix) (m : Modulus) : mixTerms mix m 0#32 0#32 = 0#32 := by
  cases mix with
  | add => exact red_zero m
  | xor => rfl

@[simp] theorem sumWords_zero : sumWords WordFile.zero = 0 := rfl

/-- Writing the word that stands there changes nothing. -/
@[simp] theorem putWord_wordAt (x : WordFile) (j : Fin 8) : putWord x j (wordAt x j) = x :=
  wordFile_ext fun k => by
    rw [wordAt_putWord]
    split_ifs with h
    · rw [h]
    · rfl

theorem stepValues_of_zero (cfg : RoundConfig) {q : Selection} {r : RoundState} (hw : r.w = WordFile.zero)
    (h0 : wordAt r.a q.c0 = 0) (h1 : wordAt r.a q.c1 = 0) : r.stepValues cfg q = ⟨0, 0, 0, 0, 0, 0⟩ := by
  have hput : putWord WordFile.zero q.a 0#32 = WordFile.zero := by simpa using putWord_wordAt WordFile.zero q.a
  simp [RoundState.stepValues, hw, h0, h1, hput]

/-- From zero words and constants the steps store zeros, where zeros stood. -/
theorem arxSteps_of_zero {q : Selection} (hq : q.Distinct) (cfg : RoundConfig) {r : RoundState}
    (hw : r.w = WordFile.zero) (h0 : wordAt r.a q.c0 = 0) (h1 : wordAt r.a q.c1 = 0) : arxSteps cfg q r = r := by
  have hvalues := stepValues_of_zero cfg hw h0 h1
  have hw' : (arxSteps cfg q r).w = r.w := wordFile_ext fun j => by
    rw [wordAt_arxSteps_w hq, hvalues, hw, wordAt_zero]
    simp only [ite_self]
  have ha' : (arxSteps cfg q r).a = r.a := wordFile_ext fun j => by
    rw [wordAt_arxSteps_a hq, hvalues]
    split_ifs with hj0 hj1
    · rw [hj0, h0]
    · rw [hj1, h1]
    · rfl
  exact congrArg₂ RoundState.mk hw' ha'

/-- Settles O29: the configuration does not matter, for every reduction and mixing of zeros is zero. -/
theorem zeroIsFixedByTheArxSteps : Obligations.ZeroIsFixedByTheArxSteps := fun ver i _ hw =>
  arxSteps_of_zero (select_distinct i) (versionConfig ver) (wordFile_ext fun j => (hw j).trans (wordAt_zero j).symm)

/-- A permutation of zero bytes gives zero bytes (42_permutation.md R84). -/
@[simp] theorem permute_zero (t : Fin 32 → Fin 32) : permute WordFile.zero t = WordFile.zero := by
  have hbyte (p : Fin 32) : byteAt WordFile.zero p = 0 := by simp [byteAt]
  exact wordFile_byte_ext fun p => by rw [byteAt_permute, hbyte, hbyte]

/-- The zero state is a fixed point of every round of every build. -/
theorem arxRound_zero (b : Build) (ver : Version) (i : Fin 16) :
    arxRound b ver i ⟨WordFile.zero, WordFile.zero⟩ = ⟨WordFile.zero, WordFile.zero⟩ := by
  rw [arxRound, arxSteps_of_zero (select_distinct i) _ rfl (wordAt_zero _) (wordAt_zero _), roundPermute, permute_zero,
    ite_self]

theorem roundsBelow_of_zero (b : Build) (ver : Version) (n : Nat) :
    roundsBelow b ver ⟨WordFile.zero, WordFile.zero⟩ n = ⟨WordFile.zero, WordFile.zero⟩ := by
  induction n with
  | zero => rfl
  | succ n ih => rw [roundsBelow_succ, ih, arxRound_zero]

/-- Settles O35: such a build starts the zero key and counter from the zero state, which no round leaves. -/
theorem zeroInputsGiveTheZeroBlock : Obligations.ZeroInputsGiveTheZeroBlock := by
  intro b ver _ hk
  have hseed : seedConstants b.kInit 0 0 = WordFile.zero := by
    simp only [seedConstants, hk 2 (by decide), hk 3 (by decide), hk 4 (by decide), hk 5 (by decide),
      hk 6 (by decide), hk 7 (by decide)]
    rfl
  have hstart : startState b WordFile.zero 0 0 = ⟨WordFile.zero, WordFile.zero⟩ := by rw [startState, hseed]
  exact congrArg RoundState.w ((congrArg (roundsBelow b ver · 16) hstart).trans (roundsBelow_of_zero b ver 16))

/-! ### A round and its parts (41_arx_round.md R71, R79) -/

/-- Settles O25: the table and the cadences are finite, and a round's parts answer as `arxRound_a` and
`roundPermute_w` say. -/
theorem operandsOfEveryRound : Obligations.OperandsOfEveryRound := by
  refine ⟨by decide, by decide, fun b ver i r => ⟨arxRound_a b ver i r, ?_⟩⟩
  rw [arxRound, roundPermute_w, permutes]
  simp only [beq_iff_eq]

end Sys2Proof.Machine

/-! PROOF. The permutation (42_permutation.md): permutations compose as their tables do, so a bijective table gives a
bijection on W that keeps the bytes; and the tables a V2.0 block reads. -/

namespace Sys2Proof.Machine

/-! ### Output bytes (42_permutation.md R84) -/

/-- Settles O31: the byte view of `permute`, and the rule's example evaluated. -/
theorem permuteTakesBytesByTheTable : Obligations.PermuteTakesBytesByTheTable := ⟨byteAt_permute, by decide⟩

/-! ### Tables compose (42_permutation.md R86, R90) -/

@[simp] theorem permute_id (w : WordFile) : permute w id = w :=
  wordFile_byte_ext fun p => byteAt_permute w id p

theorem permute_permute (w : WordFile) (t u : Fin 32 → Fin 32) : permute (permute w t) u = permute w (t ∘ u) :=
  wordFile_byte_ext fun p => by simp only [byteAt_permute, Function.comp_apply]

/-- A bijective table is undone by its inverse. -/
theorem permute_bijective (t : Equiv.Perm (Fin 32)) : Function.Bijective fun w => permute w t := by
  refine Function.bijective_iff_has_inverse.mpr ⟨fun w => permute w t.symm, fun w => ?_, fun w => ?_⟩
  · calc permute (permute w t) t.symm = permute w (t ∘ t.symm) := permute_permute w t t.symm
      _ = w := by rw [t.self_comp_symm, permute_id]
  · calc permute (permute w t.symm) t = permute w (t.symm ∘ t) := permute_permute w t.symm t
      _ = w := by rw [t.symm_comp_self, permute_id]

/-- A bijective table takes each byte once. -/
theorem map_byteAt_permute (w : WordFile) (t : Equiv.Perm (Fin 32)) :
    (Finset.univ.val.map (byteAt (permute w t)) : Multiset Byte) = Finset.univ.val.map (byteAt w) :=
  calc (Finset.univ.val.map (byteAt (permute w t)) : Multiset Byte)
      = Finset.univ.val.map (byteAt w ∘ t) := Multiset.map_congr rfl fun p _ => byteAt_permute w t p
    _ = (Finset.univ.val.map t).map (byteAt w) := (Multiset.map_map _ _ _).symm
    _ = Finset.univ.val.map (byteAt w) := by rw [Multiset.map_univ_val_equiv]

/-- Settles O32: the table of a round is a bijection by its type (42_permutation.md R86). -/
theorem permutationIsABijectionOnBytes : Obligations.PermutationIsABijectionOnBytes := fun b i =>
  ⟨fun cfg r => roundPermute_a b cfg i r, permute_bijective (b.permTable i),
    fun w => map_byteAt_permute w (b.permTable i)⟩

/-! ### The tables a block reads (42_permutation.md R88, R89) -/

/-- Two builds with the same rounds run the same. -/
theorem roundsBelow_congr {b b' : Build} {ver : Version} (h : ∀ i r, arxRound b ver i r = arxRound b' ver i r)
    (r : RoundState) (n : Nat) : roundsBelow b ver r n = roundsBelow b' ver r n := by
  induction n with
  | zero => rfl
  | succ n ih => rw [roundsBelow_succ, roundsBelow_succ, ih, h]

/-- A block depends on K_INIT, the version's configuration and the tables of the rounds that permute. -/
theorem deriveBlock_congr {b b' : Build} {ver : Version} (hk : b.kInit = b'.kInit)
    (hc : b.versionConfig ver = b'.versionConfig ver)
    (ht : ∀ i, permutes (b.versionConfig ver) i = true → b.permTable i = b'.permTable i) (key : WordFile)
    (ctr : BitVec 64) : deriveBlock b key ctr ver = deriveBlock b' key ctr ver := by
  rw [deriveBlock, deriveBlock, startState, startState, hk, roundsBelow_congr fun i r => round_congr r hc (ht i)]

/-- Settles O33: by `operandsOfEveryRound` a V2.0 block permutes in rounds 0, 4, 8 and 12 only. -/
theorem v20BlockUsesFourTables : Obligations.V20BlockUsesFourTables := by
  intro b b' key ctr hb hb' hk h0 h4 h8 h12
  refine deriveBlock_congr hk (by rw [hb, hb']) (fun i hi => ?_) key ctr
  obtain ⟨-, hcadence, -⟩ := operandsOfEveryRound
  obtain ⟨-, -, hv20⟩ := hcadence i
  have hround : i = 0 ∨ i = 4 ∨ i = 8 ∨ i = 12 := by
    simp only [Fin.ext_iff]
    exact hv20.mp (hb ▸ hi)
  obtain rfl | rfl | rfl | rfl := hround
  · exact h0
  · exact h4
  · exact h8
  · exact h12

end Sys2Proof.Machine

/-! PROOF. A write to CMD (43_driver.md R92 to R104): the decoder's verdict, and the whole next state of each command on
an idle and on a busy engine. -/

namespace Sys2Proof.Machine

/-! ### The commands (43_driver.md R92, R102 to R104) -/

theorem exec_deriveInstr (ver : Version) (ai : Bool) (s : State) :
    exec (deriveInstr ver ai) s = .next (issue .derive ver ai 0 s) := by
  cases ver <;> rfl

theorem exec_transformInstr (ver : Version) (ai : Bool) (len : BitVec 6) (s : State) :
    exec (transformInstr ver ai len) s = .next (issueTransform ver ai len s) := by
  cases ver <;> rfl

theorem lenLegal_iff {len : BitVec 6} : lenLegal len = true ↔ 1 ≤ len.toNat ∧ len.toNat ≤ 32 := by
  rw [lenLegal, Bool.and_eq_true, decide_eq_true_iff, decide_eq_true_iff]

/-- An idle engine accepts a DERIVE (43_driver.md R103). -/
theorem exec_derive_of_idle (ver : Version) (ai : Bool) {s : State} (hidle : s.engine.status.busy = false) :
    exec (deriveInstr ver ai) s = .next { s with engine := accept .derive ver ai 0 s.engine } := by
  rw [exec_deriveInstr, issue_of_idle _ _ _ _ hidle]

/-- An idle engine accepts a TRANSFORM with a legal LEN (43_driver.md R104). -/
theorem exec_transform_of_idle (ver : Version) (ai : Bool) {len : BitVec 6} {s : State}
    (hlegal : lenLegal len = true) (hidle : s.engine.status.busy = false) :
    exec (transformInstr ver ai len) s = .next { s with engine := accept .transform ver ai len s.engine } := by
  rw [exec_transformInstr, issueTransform_of_idle _ _ hlegal hidle]

theorem exec_nop_of_idle {s : State} (hidle : s.engine.status.busy = false) : exec .nop s = .next s := by
  simp [exec, execNop, hidle]

theorem issue_of_busy (op : Operation) (ver : Version) (ai : Bool) (len : BitVec 6) {s : State}
    (hbusy : s.engine.status.busy = true) :
    issue op ver ai len s = { s with engine := reject .busy s.engine } := if_pos hbusy

theorem issueTransform_of_busy (ver : Version) (ai : Bool) (len : BitVec 6) {s : State}
    (hbusy : s.engine.status.busy = true) :
    issueTransform ver ai len s = { s with engine := reject .busy s.engine } := by
  simp [issueTransform, issue_of_busy, hbusy]

/-- A busy engine rejects every command with BUSY (60_exceptions.md R111). -/
theorem exec_of_busy (i : Instr) {s : State} (hbusy : s.engine.status.busy = true) :
    exec i s = .next { s with engine := reject .busy s.engine } := by
  cases i with
  | nop => exact congrArg Host.Outcome.next (if_pos hbusy)
  | deriveV10 ai | deriveV11 ai | deriveV20 ai => exact congrArg Host.Outcome.next (issue_of_busy _ _ _ _ hbusy)
  | transformV10 ai len | transformV11 ai len | transformV20 ai len =>
    exact congrArg Host.Outcome.next (issueTransform_of_busy _ _ _ hbusy)

/-! ### The verdict (30_encoding.md R50) -/

/-- A busy engine rejects every word with BUSY, the first check (30_encoding.md R50). -/
@[simp] theorem decode_busy (v : Word) : decode v true = .reject .busy := rfl

/-- An OP of 0 in a word other than 0 leaves a bit that a NOP must not set (30_encoding.md R49). -/
theorem decodeWord_of_op_zero {v : Word} (hop : opField v = 0) (hne : v ≠ 0) : decodeWord v = .reject .rsvd := by
  unfold decodeWord
  split_ifs with hreserved hopcode hunused
  · rfl
  · simp [hop] at hopcode
  · rfl
  · obtain ⟨hhigh, -⟩ := not_or.mp hreserved
    exact absurd (eq_zero_of_nop (not_ne_iff.mp hhigh) hop (not_ne_iff.mp hunused)) hne

/-! ### The obligations -/

/-- Settles O6: the write is at CMD, so the verdict decides the step. -/
theorem commandWriteActsOnTheVerdict : Obligations.CommandWriteActsOnTheVerdict := by
  rintro s v ⟨hturn, hv⟩
  obtain ⟨rest, hs⟩ := List.head?_eq_some_iff.mp hv
  have hstep := step_of_write (vc := versionConfig) hturn hs
  rw [if_pos rfl, writeResponse_offsetOf] at hstep
  exact hstep

/-- Settles O7: an idle engine decodes the word to its command, and a busy one rejects the word as it rejects every
command. -/
theorem stepRunsTheDecodedCommand : Obligations.StepRunsTheDecodedCommand := by
  intro s i hwf hw
  rw [commandWriteActsOnTheVerdict s _ hw]
  cases hbusy : s.engine.status.busy with
  | false => simp only [decode_eq_command_iff.mpr ⟨hwf, rfl⟩]
  | true => rw [decode_busy, exec_of_busy i (s := afterAccess s ⟨false, none⟩) hbusy, afterAccess_engine]

/-- Settles O8: 0 is the word of NOP, and every other word with OP 0 fails a check for reserved bits. -/
theorem nopChangesNothing : Obligations.NopChangesNothing := by
  refine ⟨fun _ => exec_nop_of_idle, fun _ => exec_of_busy .nop, fun v => ?_, fun v hop => ?_⟩
  · exact decode_eq_command_iff.trans (and_iff_right rfl)
  · exact decodeWord_of_op_zero ((opField_eq_iff v 0).mpr hop)

/-- Settles O9: the accept of a DERIVE, field by field. -/
theorem deriveAcceptStartsTheSequencer : Obligations.DeriveAcceptStartsTheSequencer := fun _ ver ai hidle =>
  exec_derive_of_idle ver ai hidle

/-- Settles O10: the accept of a TRANSFORM, field by field. -/
theorem transformAcceptStartsTheSequencer : Obligations.TransformAcceptStartsTheSequencer :=
  fun _ ver ai _ hidle hpos hle => exec_transform_of_idle ver ai (lenLegal_iff.mpr ⟨hpos, hle⟩) hidle

end Sys2Proof.Machine

/-! PROOF. The steps of the sequencer (43_driver.md R97 to R101): the whole next state of a round step and of a
completion. -/

namespace Sys2Proof.Machine

/-- The step of the sequencer in RUN(i) (43_driver.md R97). -/
theorem step_of_run {vc : Version → RoundConfig} {s : State} {i : Fin 16} (hturn : turnOf s = .sequencer)
    (hseq : s.engine.seq = .run i) :
    stepWith vc s = .next { s with turns := s.turns.tail, engine := roundStep vc i s.engine } := by
  rw [step_of_sequencer hturn]
  simp only [sequencerTurn, hseq]

/-- The step of the sequencer in EMIT (43_driver.md R98). -/
theorem step_of_emit {vc : Version → RoundConfig} {s : State} (hturn : turnOf s = .sequencer)
    (hseq : s.engine.seq = .emit) :
    stepWith vc s = .next { s with
      turns := s.turns.tail, engine := complete s.freeNext s.engine, freeNext := s.freeNext + 1 } := by
  rw [step_of_sequencer hturn]
  simp only [sequencerTurn, hseq]

/-! ### The values of a completion (43_driver.md R99, R100) -/

/-- A transformed segment byte by byte (43_driver.md R99). -/
@[simp] theorem byteAt_transformData (len : BitVec 6) (din ks : WordFile) (p : Fin 32) :
    byteAt (transformData len din ks) p = if p.val < len.toNat then byteAt din p ^^^ byteAt ks p else 0 := by
  rw [transformData, byteAt_wordsOf]

/-- At the completion of a TRANSFORM each byte of DOUT is that of the latched data, transformed (43_driver.md R99). -/
theorem byteAt_complete_dout (n : Nat) {e : Engine} (hop : e.latch.op = .transform) (p : Fin 32) :
    byteAt (complete n e).dout p =
      if p.val < e.latch.len.toNat then byteAt e.latch.din p ^^^ byteAt e.w p else 0 := by
  rw [complete_dout, if_pos hop, byteAt_transformData]

theorem complete_dout_of_ne (n : Nat) {e : Engine} (hop : e.latch.op ≠ .transform) :
    (complete n e).dout = e.dout := if_neg hop

/-- With AUTOINC a completion writes the latched counter plus 1 (43_driver.md R100). -/
theorem ctrOf_complete_of_ai (n : Nat) {e : Engine} (hai : e.latch.ai = true) :
    ctrOf (complete n e) = e.latch.ctr + 1 := by
  rw [ctrOf, complete_ctrHi, complete_ctrLo, if_pos hai, if_pos hai, nextCounter]
  exact BitVec.extractLsb'_append_extractLsb'

theorem counterWraps_iff (l : Latches) : counterWraps l = true ↔ l.ai = true ∧ l.ctr.toNat = 2 ^ 64 - 1 := by
  rw [counterWraps, Bool.and_eq_true, beq_iff_eq, ← BitVec.toNat_inj]
  rfl

/-! ### The obligations -/

/-- Settles O15: the round's parts are those of `operandsOfEveryRound`, and the position moves as `seqAfter_eq` says. -/
theorem roundStepRunsOneRound : Obligations.RoundStepRunsOneRound := by
  intro vc s i hturn hseq cfg r
  obtain ⟨-, -, hparts⟩ := operandsOfEveryRound
  obtain ⟨ha, hw⟩ := hparts (buildWith vc) s.engine.latch.ver i ⟨s.engine.w, s.engine.a⟩
  rw [step_of_run hturn hseq]
  simp only [roundStep, ha, hw, seqAfter_eq]
  rfl

/-- Settles O17: the two outputs of `complete`, and DOUT byte by byte. -/
theorem completionEmitsTheBlock : Obligations.CompletionEmitsTheBlock := by
  intro s hturn hseq
  exact ⟨_, step_of_emit hturn hseq, fun _ => rfl, byteAt_complete_dout _, complete_dout_of_ne _⟩

/-- Settles O18: CTR takes the two halves of the latched counter plus 1, and CWRAP is set on a wrap. -/
theorem completionAdvancesTheCounter : Obligations.CompletionAdvancesTheCounter := by
  intro s hturn hseq
  refine ⟨_, step_of_emit hturn hseq, fun hai => ?_, fun hai => ?_, ?_⟩
  · rw [ctrOf_complete_of_ai _ hai, BitVec.toNat_add]
    rfl
  · simp [hai]
  · rw [complete_status, statusComplete_cwrap, Bool.or_eq_true, counterWraps_iff]

/-- Settles O19: a completion writes no other field, and DONE makes irq follow IE (60_exceptions.md R116). -/
theorem completionFinishesTheCommand : Obligations.CompletionFinishesTheCommand := by
  intro s hturn hseq
  refine ⟨_, step_of_emit hturn hseq, rfl, rfl, rfl, ?_, rfl, rfl, rfl, rfl, rfl, rfl, rfl, rfl, rfl⟩
  simp [irq]

end Sys2Proof.Machine

/-! PROOF. A command in flight (43_driver.md R105, R109; 60_exceptions.md R118): no turn of the host disturbs it, each
turn of the sequencer takes it on by a round, and the last one completes it with its block. -/

namespace Sys2Proof.Machine

/-! ### The host's turns (60_exceptions.md R118) -/

/-- What a running command needs is the same in both engines: W, A, the position, the latches, BUSY and the outputs. -/
structure Engine.SameCommand (e e' : Engine) : Prop where
  w : e'.w = e.w
  a : e'.a = e.a
  seq : e'.seq = e.seq
  latch : e'.latch = e.latch
  out : e'.out = e.out
  dout : e'.dout = e.dout
  busy : e'.status.busy = e.status.busy

theorem busWrite_sameCommand (off : BitVec 8) (v : Word) (e : Engine) : e.SameCommand (busWrite off v e) := by
  obtain ⟨hout, hdout, hw, ha, hseq, hlatch, -⟩ := busWrite_frame off v e
  exact ⟨hw, ha, hseq, hlatch, hout, hdout, busWrite_busy off v e⟩

theorem reject_sameCommand (c : ErrCode) (e : Engine) : e.SameCommand (reject c e) :=
  ⟨rfl, rfl, rfl, rfl, rfl, rfl, statusReject_busy c e.status⟩

/-- A turn of the host leaves a running command alone, for a busy engine accepts nothing (60_exceptions.md R118). -/
theorem step_sameCommand_of_host {vc : Version → RoundConfig} {s t : State} (hturn : turnOf s = .host)
    (hbusy : s.engine.status.busy = true) (hstep : stepWith vc s = .next t) : s.engine.SameCommand t.engine := by
  rcases step_engine_cases hstep with ⟨h, -⟩ | ⟨h, -⟩ | ⟨-, he⟩ | ⟨-, off, v, -, -, he⟩ | ⟨-, c, he⟩ | ⟨-, hidle, -⟩
  · cases hturn.symm.trans h
  · cases hturn.symm.trans h
  · rw [he]
    exact ⟨rfl, rfl, rfl, rfl, rfl, rfl, rfl⟩
  · rw [he]
    exact busWrite_sameCommand off v s.engine
  · rw [he]
    exact reject_sameCommand c s.engine
  · cases hbusy.symm.trans hidle

/-! ### A command in flight -/

/-- The engine `e` still runs the command that `acc` has just accepted: the rounds done are those of its start, and the
latches and the outputs are as they were. -/
structure Engine.InFlight (vc : Version → RoundConfig) (e acc : Engine) : Prop where
  runs : e.Runs vc acc.latch.ver ⟨acc.w, acc.a⟩
  latch : e.latch = acc.latch
  out : e.out = acc.out
  dout : e.dout = acc.dout

theorem accept_inFlight (vc : Version → RoundConfig) (op : Operation) (ver : Version) (ai : Bool) (len : BitVec 6)
    (e : Engine) : (accept op ver ai len e).InFlight vc (accept op ver ai len e) :=
  ⟨accept_runs vc op ver ai len e, rfl, rfl, rfl⟩

theorem Engine.InFlight.of_sameCommand {vc : Version → RoundConfig} {acc e e' : Engine} (h : e.InFlight vc acc)
    (hsame : e.SameCommand e') : e'.InFlight vc acc where
  runs := ⟨hsame.busy.trans h.runs.busy, hsame.seq ▸ h.runs.running, hsame.latch ▸ h.runs.latched, by
    rw [hsame.w, hsame.a, hsame.seq, h.runs.rounds]⟩
  latch := hsame.latch.trans h.latch
  out := hsame.out.trans h.out
  dout := hsame.dout.trans h.dout

theorem Engine.InFlight.roundStep {vc : Version → RoundConfig} {acc e : Engine} {i : Fin 16} (h : e.InFlight vc acc)
    (hseq : e.seq = .run i) : (roundStep vc i e).InFlight vc acc :=
  ⟨roundStep_runs hseq h.runs, h.latch, h.out, h.dout⟩

/-- A running command with more than one turn left is in a round. -/
theorem run_of_one_lt_turnsLeft {q : SeqPos} (h : 1 < q.turnsLeft) : ∃ i, q = .run i := by
  cases q with
  | idle => simp [SeqPos.turnsLeft] at h
  | run i => exact ⟨i, rfl⟩
  | emit => simp [SeqPos.turnsLeft] at h

/-- A running command with one turn left is at its completion. -/
theorem emit_of_turnsLeft_eq_one {q : SeqPos} (h : q.turnsLeft = 1) : q = .emit := by
  cases q with
  | idle => simp [SeqPos.turnsLeft] at h
  | run i => simp only [SeqPos.turnsLeft] at h; omega
  | emit => rfl

/-- Short of its last turn a command is still in flight, each turn of the sequencer having taken it on by one. -/
theorem Engine.InFlight.reaches {vc : Version → RoundConfig} {acc : Engine} {ts rest : List Turn} {s : State}
    (h : s.engine.InFlight vc acc) (hreset : Turn.reset ∉ ts) (hturns : s.turns = ts ++ rest)
    (hleft : sequencerTurns ts < s.engine.seq.turnsLeft) :
    ∃ u, Reaches vc ts.length s u ∧ u.turns = rest ∧ u.engine.InFlight vc acc ∧
      u.engine.seq.turnsLeft + sequencerTurns ts = s.engine.seq.turnsLeft := by
  induction ts generalizing s with
  | nil => exact ⟨s, rfl, hturns, h, rfl⟩
  | cons turn ts ih =>
    have hturn : turnOf s = turn := by simp [turnOf, hturns]
    have htail : s.turns.tail = ts ++ rest := by rw [hturns]; rfl
    have hreset' : Turn.reset ∉ ts := fun hr => hreset (List.mem_cons_of_mem _ hr)
    cases turn with
    | reset => simp at hreset
    | host =>
      have hcount : sequencerTurns (.host :: ts) = sequencerTurns ts := List.count_cons_of_ne (by decide)
      rw [hcount] at hleft ⊢
      obtain ⟨t, hstep, htturns, -⟩ := stepWith_next vc s
      have hsame := step_sameCommand_of_host hturn h.runs.busy hstep
      rw [← hsame.seq] at hleft ⊢
      obtain ⟨u, hu, hrest⟩ := ih (h.of_sameCommand hsame) hreset' (htturns.trans htail) hleft
      exact ⟨u, ⟨t, hstep, hu⟩, hrest⟩
    | sequencer =>
      have hcount : sequencerTurns (.sequencer :: ts) = sequencerTurns ts + 1 := List.count_cons_self
      rw [hcount] at hleft ⊢
      obtain ⟨i, hseq⟩ := run_of_one_lt_turnsLeft (by omega : 1 < s.engine.seq.turnsLeft)
      rw [hseq, ← turnsLeft_seqAfter] at hleft ⊢
      obtain ⟨u, hu, huturns, hinFlight, hleft'⟩ := ih
        (s := { s with turns := s.turns.tail, engine := Machine.roundStep vc i s.engine })
        (h.roundStep hseq) hreset' htail (Nat.lt_of_succ_lt_succ hleft)
      exact ⟨u, ⟨_, step_of_run hturn hseq, hu⟩, huturns, hinFlight, congrArg (· + 1) hleft'⟩

/-- A command in flight is so after every step before its last turn. -/
theorem Engine.InFlight.reaches_before {vc : Version → RoundConfig} {acc : Engine} {ts rest : List Turn} {s : State}
    (h : s.engine.InFlight vc acc) (hreset : Turn.reset ∉ ts) (hturns : s.turns = ts ++ rest)
    (hleft : sequencerTurns ts < s.engine.seq.turnsLeft) {m : Nat} (hm : m ≤ ts.length) :
    ∃ v, Reaches vc m s v ∧ v.engine.InFlight vc acc := by
  have hsplit : s.turns = ts.take m ++ (ts.drop m ++ rest) := by
    rw [hturns, ← List.append_assoc, List.take_append_drop]
  have hfew : sequencerTurns (ts.take m) ≤ sequencerTurns ts := (List.take_sublist m ts).count_le _
  obtain ⟨v, hv, -, hinFlight, -⟩ := h.reaches (fun hr => hreset (List.mem_of_mem_take hr)) hsplit
    (hfew.trans_lt hleft)
  rw [List.length_take_of_le hm] at hv
  exact ⟨v, hv, hinFlight⟩

/-- The last turn of a command in flight completes it. -/
theorem Engine.InFlight.reaches_complete {vc : Version → RoundConfig} {acc : Engine} {ts rest : List Turn} {s : State}
    (h : s.engine.InFlight vc acc) (hreset : Turn.reset ∉ ts) (hturns : s.turns = ts ++ .sequencer :: rest)
    (hleft : sequencerTurns ts + 1 = s.engine.seq.turnsLeft) :
    ∃ u n e, Reaches vc (ts.length + 1) s u ∧ u.turns = rest ∧ u.engine = complete n e ∧ e.seq = .emit ∧
      e.InFlight vc acc := by
  obtain ⟨v, hv, hvturns, hinFlight, hcount⟩ := h.reaches hreset hturns (by omega)
  have hemit := emit_of_turnsLeft_eq_one (by omega : v.engine.seq.turnsLeft = 1)
  have hstep := step_of_emit (vc := vc) (s := v) (by simp [turnOf, hvturns]) hemit
  exact ⟨_, v.freeNext, v.engine, reaches_add.mpr ⟨v, hv, _, hstep, rfl⟩, congrArg List.tail hvturns, rfl, hemit,
    hinFlight⟩

/-! ### The block of an accepted command (43_driver.md R105) -/

/-- The 16 rounds from an accept compute the block of the key and the counter it found. -/
theorem roundsBelow_accept (vc : Version → RoundConfig) (op : Operation) (ver : Version) (ai : Bool) (len : BitVec 6)
    (e : Engine) :
    (roundsBelow (buildWith vc) ver ⟨(accept op ver ai len e).w, (accept op ver ai len e).a⟩ 16).w =
      deriveBlock (buildWith vc) e.key (ctrOf e) ver := by
  rw [deriveBlock, ctrOf, BitVec.extractLsb'_append_eq_left, BitVec.extractLsb'_append_eq_right]
  rfl

/-- At its completion a command in flight has its block in W. -/
theorem Engine.InFlight.w_of_emit {vc : Version → RoundConfig} {op : Operation} {ver : Version} {ai : Bool}
    {len : BitVec 6} {e₀ e : Engine} (h : e.InFlight vc (accept op ver ai len e₀)) (hemit : e.seq = .emit) :
    e.w = deriveBlock (buildWith vc) e₀.key (ctrOf e₀) ver := by
  rw [← roundsBelow_accept vc op ver ai len e₀]
  exact (complete_emitted 0 hemit h.runs).out

/-- Settles O53: a command in flight stays so through the turns before its last, and the last one is a completion with
the block in W and the latches of the accept. -/
theorem acceptedCommandCompletesWhateverTheHostDoes : Obligations.AcceptedCommandCompletesWhateverTheHostDoes := by
  intro vc s i op ver ai len hidle hi
  have hexec : exec i s = .next { s with engine := accept op ver ai len s.engine } := by
    obtain ⟨rfl, rfl, rfl⟩ | ⟨rfl, rfl, hlen⟩ := hi
    · exact exec_derive_of_idle ver ai hidle
    · exact exec_transform_of_idle ver ai (lenLegal_iff.mpr hlen) hidle
  have hstart := accept_inFlight vc op ver ai len s.engine
  refine ⟨_, hexec, fun ts rest hreset hcount => ⟨fun m hm => ?_, ?_⟩⟩
  · obtain ⟨v, hv, h⟩ := Engine.InFlight.reaches_before
      (s := { s with engine := accept op ver ai len s.engine, turns := ts ++ .sequencer :: rest })
      hstart hreset rfl (Nat.lt_succ_of_le hcount.le) hm
    exact ⟨v, hv, h.runs.busy, h.out, h.dout⟩
  · obtain ⟨u, n, e, hu, huturns, he, hemit, h⟩ := Engine.InFlight.reaches_complete
      (s := { s with engine := accept op ver ai len s.engine, turns := ts ++ .sequencer :: rest })
      hstart hreset rfl (congrArg (· + 1) hcount)
    have hw := h.w_of_emit hemit
    have hlatch : e.latch = latchInputs op ver ai len s.engine := h.latch
    refine ⟨u, hu, huturns, ?_⟩
    rw [he]
    refine ⟨rfl, rfl, rfl, hw, fun hop => ?_, fun hop p => ?_, fun hai => ?_⟩
    · rw [complete_dout_of_ne n (by simp [hlatch, hop]), h.dout, accept_dout]
    · rw [byteAt_complete_dout n (by simp [hlatch, hop]), hlatch, hw, latchInputs_len, latchInputs_din]
    · rw [ctrOf_complete_of_ai n (by simp [hlatch, hai]), hlatch, latchInputs_ctr, ctrOf]

/-! ### TRANSFORM as an involution (43_driver.md R109) -/

/-- A TRANSFORM that runs alone for its 17 turns leaves its data XOR its block in DOUT (43_driver.md R105). -/
theorem transform_alone (vc : Version → RoundConfig) {s : State} (ver : Version) (ai : Bool) {len : BitVec 6}
    (hidle : s.engine.status.busy = false) (hlen : 1 ≤ len.toNat ∧ len.toNat ≤ 32) :
    ∃ t u, exec (transformInstr ver ai len) s = .next t ∧
      Reaches vc 17 { t with turns := List.replicate 17 .sequencer } u ∧
      ∀ p : Fin 32, byteAt u.engine.dout p =
        if p.val < len.toNat then
          byteAt s.engine.din p ^^^ byteAt (deriveBlock (buildWith vc) s.engine.key (ctrOf s.engine) ver) p
        else 0 := by
  obtain ⟨t, ht, hruns⟩ := acceptedCommandCompletesWhateverTheHostDoes vc s (transformInstr ver ai len) .transform ver
    ai len hidle (.inr ⟨rfl, rfl, hlen⟩)
  obtain ⟨-, u, hu, -, -, -, -, -, -, hdout, -⟩ := hruns (List.replicate 16 .sequencer) [] (by decide) (by decide)
  exact ⟨t, u, ht, hu, hdout rfl⟩

/-- Settles O54: both commands have the same block, and its XOR undoes itself. -/
theorem transformTwiceGivesTheDataBack : Obligations.TransformTwiceGivesTheDataBack := by
  intro vc s s' ver ai ai' len hpos hle hidle hidle' hkey hctr
  obtain ⟨t, u, ht, hu, hdout⟩ := transform_alone vc ver ai hidle ⟨hpos, hle⟩
  refine ⟨t, u, ht, hu, fun p hp => ?_, fun hdin => ?_⟩
  · rw [hdout, if_neg (Nat.not_lt.mpr hp)]
  · obtain ⟨t', u', ht', hu', hdout'⟩ := transform_alone vc ver ai' hidle' ⟨hpos, hle⟩
    refine ⟨t', u', ht', hu', fun p => ?_⟩
    rw [hdout', hkey, hctr, hdin, hdout]
    split_ifs
    · rw [BitVec.xor_assoc, BitVec.xor_self, BitVec.xor_zero]
    · rfl

end Sys2Proof.Machine

/-! PROOF. K_INIT[0] and K_INIT[1] are not observable (43_driver.md R95). -/

namespace Sys2Proof.Machine

/-- The counter takes the place of K_INIT[0] and K_INIT[1] in the seed (43_driver.md R94, R95). -/
theorem seedConstants_congr {k k' : Fin 8 → Word} (h : ∀ j : Fin 8, 2 ≤ j.val → k j = k' j) (hi lo : Word) :
    seedConstants k hi lo = seedConstants k' hi lo := by
  rw [seedConstants, h 2 (by decide), h 3 (by decide), h 4 (by decide), h 5 (by decide), h 6 (by decide),
    h 7 (by decide)]
  rfl

/-- Settles O34: only the seed reads K_INIT, and the rounds of the two builds are the same. -/
theorem firstTwoInitialConstantsAreNotObservable : Obligations.FirstTwoInitialConstantsAreNotObservable := by
  intro b b' key ctr ver hc ht hk
  have hround (i : Fin 16) (r : RoundState) : arxRound b ver i r = arxRound b' ver i r :=
    round_congr r (by rw [hc]) fun _ => by rw [ht]
  rw [deriveBlock, deriveBlock, startState, startState, seedConstants_congr hk, roundsBelow_congr hround]

end Sys2Proof.Machine

/-! PROOF. The segments of a buffer (43_driver.md R108). -/

namespace Sys2Proof.Machine

@[simp] theorem segments_nil (fuel : Nat) : segments fuel [] = [] := by cases fuel <;> rfl

theorem segments_succ (fuel : Nat) {data : List Byte} (hne : data ≠ []) :
    segments (fuel + 1) data = data.take 32 :: segments fuel (data.drop 32) := by
  cases data with
  | nil => exact absurd rfl hne
  | cons byte rest => rfl

/-- A buffer and its segments, given fuel for every byte: an empty buffer has none, and any other one has a segment of
32 bytes or of all that is left, and then the segments of the rest. -/
theorem segments_induction {p : List Byte → List (List Byte) → Prop} (nil : p [] [])
    (cons : ∀ data segs, data ≠ [] → p (data.drop 32) segs → p data (data.take 32 :: segs)) {fuel : Nat}
    {data : List Byte} (hfuel : data.length ≤ fuel) : p data (segments fuel data) := by
  induction fuel generalizing data with
  | zero =>
    obtain rfl := List.eq_nil_of_length_eq_zero (Nat.le_zero.mp hfuel)
    exact nil
  | succ fuel ih =>
    by_cases hne : data = []
    · rw [hne, segments_nil]
      exact nil
    · rw [segments_succ fuel hne]
      have hpos := List.length_pos_of_ne_nil hne
      exact cons data _ hne (ih (by rw [List.length_drop]; omega))

section
variable {fuel : Nat} {data : List Byte} (hfuel : data.length ≤ fuel)
include hfuel

theorem segments_flatten : (segments fuel data).flatten = data := by
  refine segments_induction (p := fun data segs => segs.flatten = data) rfl (fun data segs _ ih => ?_) hfuel
  rw [List.flatten_cons, ih, List.take_append_drop]

theorem segments_length : (segments fuel data).length = (data.length + 31) / 32 := by
  refine segments_induction (p := fun data segs => segs.length = (data.length + 31) / 32) rfl
    (fun data segs hne ih => ?_) hfuel
  have hpos := List.length_pos_of_ne_nil hne
  rw [List.length_cons, ih, List.length_drop]
  omega

theorem length_of_mem_segments : ∀ seg ∈ segments fuel data, 1 ≤ seg.length ∧ seg.length ≤ 32 := by
  refine segments_induction (p := fun _ segs => ∀ seg ∈ segs, 1 ≤ seg.length ∧ seg.length ≤ 32) (by simp)
    (fun data segs hne ih => ?_) hfuel
  have hpos := List.length_pos_of_ne_nil hne
  rw [List.forall_mem_cons, List.length_take]
  exact ⟨by omega, ih⟩

/-- Where another segment follows, more than 32 bytes were left. -/
theorem length_of_mem_segments_dropLast : ∀ seg ∈ (segments fuel data).dropLast, seg.length = 32 := by
  refine (segments_induction (p := fun data segs =>
    (segs ≠ [] → data ≠ []) ∧ ∀ seg ∈ segs.dropLast, seg.length = 32) (by simp)
    (fun data segs hne ⟨hmore, ih⟩ => ⟨fun _ => hne, ?_⟩) hfuel).2
  cases segs with
  | nil => simp
  | cons next segs =>
    have hrest := List.length_pos_of_ne_nil (hmore (List.cons_ne_nil _ _))
    rw [List.length_drop] at hrest
    rw [List.dropLast_cons_cons, List.forall_mem_cons, List.length_take]
    exact ⟨by omega, ih⟩

end

/-- Settles O60: a buffer is as long as its fuel. -/
theorem segmentsCoverTheBuffer : Obligations.SegmentsCoverTheBuffer := fun _ =>
  ⟨segments_flatten le_rfl, segments_length le_rfl, length_of_mem_segments le_rfl,
    length_of_mem_segments_dropLast le_rfl⟩

end Sys2Proof.Machine

/-! PROOF. Errors and the interrupt (60_exceptions.md R111 to R118): a rejection records the first error only, a
recorded error stays until the host clears it or reset, and no turn of the host disturbs a running command. -/

namespace Sys2Proof.Machine

/-! ### A rejection and its record (60_exceptions.md R112, R113) -/

/-- With an error recorded, a rejection changes nothing (60_exceptions.md R113). -/
theorem reject_of_err (c : ErrCode) {e : Engine} (herr : e.status.err = true) : reject c e = e := by
  rw [reject, statusReject, if_pos herr]

/-- With no error recorded, a rejection sets ERR and ERRCODE and nothing else (60_exceptions.md R112). -/
theorem reject_of_no_err (c : ErrCode) {e : Engine} (hnone : e.status.err = false) :
    reject c e = { e with status := { e.status with err := true, errCode := errCodeBits c } } := by
  rw [reject, statusReject, if_neg (Bool.eq_false_iff.mp hnone)]

/-- The step of a CMD write that the decoder rejects. -/
theorem step_of_rejected {s : State} {v : Word} {c : ErrCode} (hw : writesCommand s v)
    (hd : decode v s.engine.status.busy = .reject c) :
    step s = .next { afterAccess s ⟨false, none⟩ with engine := reject c s.engine } := by
  rw [commandWriteActsOnTheVerdict s v hw, hd]

/-! ### What clears a recorded error (60_exceptions.md R113) -/

/-- A write that is not a command changes STATUS only at its own offset, and there by clearing (10_state.md R10). -/
theorem busWrite_status (off : BitVec 8) (v : Word) (e : Engine) :
    (busWrite off v e).status = e.status ∨
      off = offsetOf .status ∧ (busWrite off v e).status = statusClear v e.status := by
  obtain h | ⟨r, hoff, h⟩ := busWrite_cases off v e <;> rw [h]
  · exact .inl rfl
  · cases r with
    | status => exact .inr ⟨hoff, rfl⟩
    | _ => exact .inl rfl

/-- The host's next access, if it is the host's turn, writes 1 to STATUS bit 2. -/
def clearsError (s : State) : Prop :=
  turnOf s = .host ∧ ∃ v : Word, s.script.head? = some (.wr (offsetOf .status) v) ∧ v.getLsbD 2 = true

/-- The write of 1 to STATUS bit 2 clears ERR and ERRCODE together (60_exceptions.md R113). -/
theorem step_of_clearsError {vc : Version → RoundConfig} {s t : State} (hclear : clearsError s)
    (hstep : stepWith vc s = .next t) : t.engine.status.err = false ∧ t.engine.status.errCode = 0 := by
  obtain ⟨hturn, v, hv, hbit⟩ := hclear
  obtain ⟨rest, hs⟩ := List.head?_eq_some_iff.mp hv
  cases (step_of_write_reg (r := .status) (by decide) hturn hs).symm.trans hstep
  exact ⟨by rw [writeReg, statusClear_err, hbit, Bool.not_true, Bool.and_false],
    by rw [writeReg, statusClear_errCode, if_pos hbit]⟩

/-- Any other step but a reset leaves a recorded error as it is: of the engine's operations only the write to STATUS
takes an error away, and that by bit 2 (60_exceptions.md R113). -/
theorem step_keeps_recorded_error {vc : Version → RoundConfig} {s t : State} (herr : s.engine.status.err = true)
    (hclear : ¬ clearsError s) (hreset : turnOf s ≠ .reset) (hstep : stepWith vc s = .next t) :
    t.engine.status.err = true ∧ t.engine.status.errCode = s.engine.status.errCode := by
  rcases step_engine_cases hstep with ⟨h, he⟩ | ⟨-, ⟨-, he⟩ | ⟨i, -, he⟩ | ⟨-, he⟩⟩ | ⟨-, he⟩ |
    ⟨hturn, off, v, hv, -, he⟩ | ⟨-, c, he⟩ | ⟨-, -, _, _, -, -, -, op, ver, ai, len, -, he⟩ <;> rw [he]
  · exact absurd h hreset
  · exact ⟨herr, rfl⟩
  · exact ⟨herr, rfl⟩
  · exact ⟨herr, rfl⟩
  · exact ⟨herr, rfl⟩
  · obtain hkept | ⟨rfl, hcleared⟩ := busWrite_status off v s.engine
    · rw [hkept]
      exact ⟨herr, rfl⟩
    · have hbit : v.getLsbD 2 = false := Bool.eq_false_iff.mpr fun h => hclear ⟨hturn, v, hv, h⟩
      rw [hcleared]
      exact ⟨by rw [statusClear_err, herr, hbit]; rfl, by rw [statusClear_errCode, hbit]; rfl⟩
  · rw [reject_of_err c herr]
    exact ⟨herr, rfl⟩
  · exact ⟨herr, rfl⟩

/-! ### The obligations -/

/-- Settles O14: reset, the clearing write and every other step, each by its own lemma. -/
theorem recordedErrorStaysUntilCleared : Obligations.RecordedErrorStaysUntilCleared := by
  intro s t hstep herr cleared
  refine ⟨fun hclear hreset => step_keeps_recorded_error herr hclear hreset hstep,
    fun hclear => step_of_clearsError hclear hstep, fun hturn => ?_⟩
  cases (step_of_reset hturn).symm.trans hstep
  exact ⟨rfl, rfl⟩

/-- Settles O52: the host's step answers a next state, whose engine runs the same command (`Engine.SameCommand`). -/
theorem hostDoesNotDisturbARunningCommand : Obligations.HostDoesNotDisturbARunningCommand := by
  intro s hbusy hturn
  obtain ⟨t, hstep, -, -⟩ := stepWith_next versionConfig s
  have hsame := step_sameCommand_of_host hturn hbusy hstep
  exact ⟨t, hstep, hsame.w, hsame.a, hsame.seq, hsame.latch, hsame.out, hsame.dout, hsame.busy.trans hbusy⟩

/-- Settles O13: the rejection is `reject`, which writes the record only if there is none. -/
theorem rejectionRecordsOnlyTheFirstError : Obligations.RejectionRecordsOnlyTheFirstError := by
  intro s v c hw hd
  rw [step_of_rejected hw hd]
  refine ⟨fun herr => ?_, fun hnone => ?_⟩
  · rw [reject_of_err c herr]
    rfl
  · rw [reject_of_no_err c hnone]
    cases c <;> rfl

/-- Settles O46: the two writes store IE and clear the written sources, and an accept clears DONE and keeps ERR. -/
theorem interruptFollowsEnableAndSources : Obligations.InterruptFollowsEnableAndSources := by
  refine ⟨fun s v rest hturn hs => ?_, fun s v rest hturn hs => ?_, fun s i hidle hwf hnop => ?_⟩
  · exact ⟨_, step_of_write_reg (r := .ctrl) (by decide) hturn hs, rfl⟩
  · exact ⟨_, step_of_write_reg (r := .status) (by decide) hturn hs, rfl⟩
  · obtain ⟨op, ver, ai, len, he⟩ := exec_of_idle hwf hnop hidle
    exact ⟨_, he, rfl, by simp [irq]⟩

/-- Settles O49: the step of every turn and the effect of every command are next states. -/
theorem everyStepAnswersANextState : Obligations.EveryStepAnswersANextState := by
  refine ⟨fun s => ?_, fun i s => ?_⟩
  · obtain ⟨t, hstep, -, -⟩ := stepWith_next versionConfig s
    exact ⟨t, hstep⟩
  · obtain ⟨e, he⟩ := exec_next i s
    exact ⟨_, he⟩

end Sys2Proof.Machine

/-! PROOF. Reset and hazards (70_reset_and_hazards.md R129, R133, R137): reset from any state, a command written while
one runs, and the two orders of a write that clears DONE and a completion. -/

namespace Sys2Proof.Machine

/-! ### The two agents of the race (70_reset_and_hazards.md R137) -/

theorem turnOf_of_cons {s : State} {t : Turn} {ts : List Turn} (hturns : s.turns = t :: ts) : turnOf s = t := by
  rw [turnOf, hturns, List.headD_cons]

/-- A host write of 1 to STATUS bit 1 clears DONE, and the sequencer stays where it is (10_state.md R10). -/
theorem step_of_clear_done (vc : Version → RoundConfig) {s : State} {v : Word} {rest : List HostLine}
    (hbit : v.getLsbD 1 = true) (hturn : turnOf s = .host) (hs : s.script = .wr (offsetOf .status) v :: rest) :
    ∃ t, stepWith vc s = .next t ∧ t.turns = s.turns.tail ∧ t.engine.seq = s.engine.seq ∧
      t.engine.status.done = false := by
  refine ⟨_, step_of_write_reg (by decide) hturn hs, rfl, rfl, ?_⟩
  rw [writeReg, statusClear_done, hbit, Bool.not_true, Bool.and_false]

/-- A completion sets DONE whatever it was, and leaves the host's script alone (43_driver.md R101). -/
theorem step_of_emit_done (vc : Version → RoundConfig) {s : State} (hturn : turnOf s = .sequencer)
    (hseq : s.engine.seq = .emit) :
    ∃ t, stepWith vc s = .next t ∧ t.turns = s.turns.tail ∧ t.script = s.script ∧ t.engine.seq = .idle ∧
      t.engine.status.done = true :=
  ⟨_, step_of_emit hturn hseq, rfl, rfl, rfl, rfl⟩

/-! ### The obligations -/

/-- Settles O12: a busy engine rejects the word as it rejects each command, with code 1. -/
theorem commandWhileBusyIsRejected : Obligations.CommandWhileBusyIsRejected := by
  refine ⟨fun s v hw hbusy => ?_, fun _ i hbusy => exec_of_busy i hbusy⟩
  have hreject : decode v s.engine.status.busy = .reject .busy := by rw [hbusy, decode_busy]
  exact step_of_rejected hw hreject

/-- Settles O47: the step of a reset puts `Engine.reset`, whose fields are the stated ones. -/
theorem resetWorksFromAnyState : Obligations.ResetWorksFromAnyState :=
  ⟨fun _ hturn => step_of_reset hturn, rfl, rfl⟩

/-- Settles O56: each order is its two steps, and the second of them decides DONE. -/
theorem clearingDoneRacesCompletion : Obligations.ClearingDoneRacesCompletion := by
  intro vc s ts rest hseq hs
  refine ⟨fun hturns => ?_, fun hturns => ?_⟩
  · obtain ⟨t, hclear, hturns', hseq', -⟩ := step_of_clear_done vc (by decide) (turnOf_of_cons hturns) hs
    rw [hturns, List.tail_cons] at hturns'
    obtain ⟨u, hcomplete, -, -, hidle, hdone⟩ :=
      step_of_emit_done vc (turnOf_of_cons hturns') (hseq'.trans hseq)
    exact ⟨u, ⟨t, hclear, u, hcomplete, rfl⟩, hdone, hidle⟩
  · obtain ⟨t, hcomplete, hturns', hs', hidle, -⟩ := step_of_emit_done vc (turnOf_of_cons hturns) hseq
    rw [hturns, List.tail_cons] at hturns'
    obtain ⟨u, hclear, -, hseq', hdone⟩ :=
      step_of_clear_done vc (by decide) (turnOf_of_cons hturns') (hs'.trans hs)
    exact ⟨u, ⟨t, hcomplete, u, hclear, rfl⟩, hdone, hseq'.trans hidle⟩

end Sys2Proof.Machine

/-! PROOF. A TRANSFORM of illegal LEN (30_encoding.md R47, 43_driver.md R104): the model's meaning of a command that no
word decodes to. -/

namespace Sys2Proof.Machine

theorem lenLegal_eq_false_iff {len : BitVec 6} : lenLegal len = false ↔ len.toNat = 0 ∨ 32 < len.toNat := by
  rw [← Bool.not_eq_true, lenLegal_iff]
  omega

/-- An idle engine checks LEN before it accepts a TRANSFORM (30_encoding.md R50). -/
theorem issueTransform_of_illegal (ver : Version) (ai : Bool) {len : BitVec 6} {s : State}
    (hillegal : lenLegal len = false) (hidle : s.engine.status.busy = false) :
    issueTransform ver ai len s = { s with engine := reject .length s.engine } :=
  if_pos ⟨hidle, hillegal⟩

/-- Settles O11: an illegal LEN is a LENGTH rejection, which records code 5 unless an error is recorded. -/
theorem transformWithIllegalLengthIsRejected : Obligations.TransformWithIllegalLengthIsRejected := by
  intro s ver ai len hidle hlen
  have hillegal : lenLegal len = false := lenLegal_eq_false_iff.mpr hlen
  rw [exec_transformInstr, issueTransform_of_illegal ver ai hillegal hidle]
  rfl

end Sys2Proof.Machine
